-- ==== Sys2Proof/Word.lean ====
section
/-! DEFINITION. The word types of phase_accumulator: the register, operand, command and response widths the spec fixes
(00_scope.md R11, R15; 30_encoding.md R80, R81). -/

namespace Sys2Proof

/-- `u32` of R15: `PHASE`, `PHASE_INC`, `DIVIDED_PHASE`, `INITIAL_PHASE`, the `DATA` and `RDATA` fields. -/
abbrev U32 := BitVec 32

/-- `u16` of R15: `LEVEL`. -/
abbrev U16 := BitVec 16

/-- `s16` of R15: 16 bits whose value is the two's complement one (`BitVec.toInt`). -/
abbrev S16 := BitVec 16

/-- The `CH` field of a command (R81). -/
abbrev Channel := BitVec 4

/-- A command word, `OP[39:36]`, `CH[35:32]`, `DATA[31:0]` (R80, R81). -/
abbrev Command := BitVec 40

/-- A response word, `STATUS[35:32]`, `RDATA[31:0]` (R80, R83). -/
abbrev Response := BitVec 36

end Sys2Proof
end

