-- ==== Sys2Proof/Syntax.lean ====
section
/-! DEFINITION. The commands of the command port, one constructor of `Instr` per row of spec/opcode_table.json
(30_encoding.md R85), with the names their operands and opcodes take: shapes (R90), opcodes (R85), operand forms (R84)
and register names (10_state.md R43). Which bits stand for which name is said in Machine/Operands.lean and Decode.lean. -/

namespace Sys2Proof

/-- The waveforms of R90. A `SHAPE` register holds one of these five: codes 5 to 7 can never be written (R42). -/
inductive Shape where
  | triangle
  | saw
  | ramp
  | trapezoid
  | sine
  deriving DecidableEq, Repr

/-- The eleven opcodes of R85. -/
inductive Opcode where
  | nop
  | init
  | setPitch
  | setShape
  | setLevel
  | setDivider
  | setInitialPhase
  | setDividedPitch
  | step
  | sample
  | readReg
  deriving DecidableEq, Repr

/-- The operand forms of R84. -/
inductive Form where
  | none
  | imm16s
  | imm16u
  | immdiv
  | imm32
  | shape3
  | reg4
  deriving DecidableEq, Repr

/-- The ten readable registers of a channel bank (R43). -/
inductive RegName where
  | phase
  | phaseInc
  | divCounter
  | divider
  | dividedPhase
  | initialPhase
  | level
  | pitch
  | dividedPitch
  | shape
  deriving DecidableEq, Repr

/-- One command, with its operands as the bits the command word carries. `ch` is the `CH` field (R81). The shape code and
the register number keep their reserved values, since the rules of SET_SHAPE and READ_REG check them (R195, R199);
`divider` is the `immdiv` operand, whose width `DIVIDER_BITS` is checked by `Instr.WellFormed`. -/
inductive Instr where
  | nop (ch : Channel)
  | init (ch : Channel)
  | setPitch (ch : Channel) (pitch : S16)
  | setShape (ch : Channel) (code : BitVec 3)
  | setLevel (ch : Channel) (level : U16)
  | setDivider (ch : Channel) (divider : U32)
  | setInitialPhase (ch : Channel) (phase : U32)
  | setDividedPitch (ch : Channel) (pitch : S16)
  | step (ch : Channel)
  | sample (ch : Channel)
  | readReg (ch : Channel) (reg : BitVec 4)
  deriving DecidableEq, Repr

/-- The channel a command names. -/
def Instr.channel : Instr → Channel
  | .nop ch => ch
  | .init ch => ch
  | .setPitch ch _ => ch
  | .setShape ch _ => ch
  | .setLevel ch _ => ch
  | .setDivider ch _ => ch
  | .setInitialPhase ch _ => ch
  | .setDividedPitch ch _ => ch
  | .step ch => ch
  | .sample ch => ch
  | .readReg ch _ => ch

/-- The opcode of a command. -/
def Instr.opcode : Instr → Opcode
  | .nop _ => .nop
  | .init _ => .init
  | .setPitch _ _ => .setPitch
  | .setShape _ _ => .setShape
  | .setLevel _ _ => .setLevel
  | .setDivider _ _ => .setDivider
  | .setInitialPhase _ _ => .setInitialPhase
  | .setDividedPitch _ _ => .setDividedPitch
  | .step _ => .step
  | .sample _ => .sample
  | .readReg _ _ => .readReg

end Sys2Proof
end

