-- ==== Sys2Proof/Config.lean ====
section
/-! DEFINITION. The implementation parameters of 00_scope.md R12, their well-formedness (R13), and the configuration the
model's reset state carries: the spec's default where it gives one, an opaque constant with no body where it leaves the
parameter OPEN. Nothing can evaluate an OPEN parameter or prove its value. -/

namespace Sys2Proof

/-- `RAMP_REF_CONV` (R12, R160): how the ramp reference is narrowed to 16 bits. -/
inductive RampConv where
  | wrap
  | saturate
  deriving DecidableEq, Repr

/-- One piece of a triangle given as data: from phase `start` on, `base + (((ep - start) * slope) >> shift)`, kept to 16 bits. -/
structure TriPiece where
  start : U32
  base : Int
  slope : Int
  shift : Nat
  deriving DecidableEq, Repr

/-- `TRI_REF` (R12, R158), a function u32 → s16 held as plain data (DESIGN CHOICE, notes/assumptions/4): the spec's default
formula, or a list of pieces, of which the last one listed that starts at or below the phase counts, the first one where none of
`rest` does. Every function u32 → s16 is such a list (`exists_triRef` in Laws/Synth.lean). -/
inductive TriRef where
  | default158
  | pieces (first : TriPiece) (rest : List TriPiece)
  deriving DecidableEq, Repr

/-- DESIGN CHOICE (notes/assumptions/5): what the place of a table word that does not exist holds (table id, index). No
command of a well-formed configuration reads one (R64), and no body means no statement can rest on it. -/
opaque Config.absentWord : Nat → Nat → Int

/-- The contents of the wavetable ROM, table by table (20_memory.md R63). Words are whole: `S16` for the wavetables, `U32`
for `LUT_INC`; there is no byte addressing and no byte order (R62, R65). -/
structure Rom where
  sine : List S16
  tri1 : List S16
  tri10 : List S16
  tri100 : List S16
  ramp1 : List S16
  ramp10 : List S16
  ramp100 : List S16
  trap1 : List S16
  trap10 : List S16
  trap100 : List S16
  lutInc : List U32
  deriving DecidableEq, Repr

/-- The canonical form of the ROM: every table has the number of entries R63 gives it, `2^BAND_BITS` for a band table.
That every entry is in its range (R13) is the type of the entry. -/
abbrev Memory.wf (bandBits : Nat) (r : Rom) : Prop :=
  r.sine.length = 1024 ∧
  r.tri1.length = 2 ^ bandBits ∧ r.tri10.length = 2 ^ bandBits ∧ r.tri100.length = 2 ^ bandBits ∧
  r.ramp1.length = 2 ^ bandBits ∧ r.ramp10.length = 2 ^ bandBits ∧ r.ramp100.length = 2 ^ bandBits ∧
  r.trap1.length = 2 ^ bandBits ∧ r.trap10.length = 2 ^ bandBits ∧ r.trap100.length = 2 ^ bandBits

/-- The parameters of R12. `LUT_INC_LEN` is the length of `rom.lutInc`. `rampRefOffset` is -32678 in the source (R12, R160); that
another integer has a meaning too is notes/assumptions/18. -/
structure Params where
  nChannels : Nat
  dividerBits : Nat
  kOctave : Nat
  incFracBits : Nat
  bandBits : Nat
  rom : Rom
  p1 : S16
  p10 : S16
  p100 : S16
  rampRefOffset : Int
  rampRefConv : RampConv
  triRef : TriRef
  forceSaw : Bool
  defaultPitch : S16
  defaultShape : Shape
  deriving DecidableEq, Repr

/-- Well-formedness of a configuration, R13. -/
abbrev Params.WellFormed (p : Params) : Prop :=
  1 ≤ p.kOctave ∧
  (p.kOctave - 1) >>> p.incFracBits + 2 ≤ p.rom.lutInc.length ∧
  Memory.wf p.bandBits p.rom ∧
  p.p1.toInt < p.p10.toInt ∧ p.p10.toInt < p.p100.toInt ∧
  1 ≤ p.bandBits ∧ p.bandBits ≤ 16 ∧
  1 ≤ p.nChannels ∧ p.nChannels ≤ 16 ∧
  1 ≤ p.dividerBits ∧ p.dividerBits ≤ 32

/-- A configuration the model gives a meaning to: parameters with the evidence that R13 holds of them. -/
structure Config extends Params where
  wellFormed : toParams.WellFormed
  deriving DecidableEq, Repr

/-- R13: "A model refuses a configuration that is not well formed; it gives it no meaning." -/
def Config.ofParams (p : Params) : Option Config :=
  if h : p.WellFormed then some { toParams := p, wellFormed := h } else none

/-- The parameters that R12 leaves OPEN. -/
structure OpenParams where
  kOctave : Nat
  incFracBits : Nat
  rom : Rom
  p1 : S16
  p10 : S16
  p100 : S16
  deriving DecidableEq, Repr

/-- R12's default for every parameter that has one and the source's own `RAMP_REF_OFFSET`, around the OPEN ones (DESIGN CHOICE,
notes/assumptions/6). -/
def OpenParams.withDefaults (o : OpenParams) : Params where
  nChannels := 4
  dividerBits := 16
  kOctave := o.kOctave
  incFracBits := o.incFracBits
  bandBits := 10
  rom := o.rom
  p1 := o.p1
  p10 := o.p10
  p100 := o.p100
  rampRefOffset := -32678
  rampRefConv := .wrap
  triRef := .default158
  forceSaw := false
  defaultPitch := 0
  defaultShape := .triangle

/-- The smallest OPEN parameters that meet R13. They are here only to show that the type of `Config.openParams` has a
member, which Lean asks of an opaque constant; they are not the value of any parameter. -/
def OpenParams.smallest : OpenParams where
  kOctave := 1
  incFracBits := 0
  rom :=
    let z := List.replicate 1024 0#16
    { sine := z, tri1 := z, tri10 := z, tri100 := z, ramp1 := z, ramp10 := z, ramp100 := z,
      trap1 := z, trap10 := z, trap100 := z, lutInc := [0#32, 0#32] }
  p1 := 0
  p10 := 1
  p100 := 2

theorem OpenParams.smallest_wellFormed : OpenParams.smallest.withDefaults.WellFormed := by
  have h : (List.replicate 1024 0#16).length = 1024 := List.length_replicate
  exact ⟨by decide, by decide, ⟨h, h, h, h, h, h, h, h, h, h⟩, by decide, by decide, by decide, by decide, by decide,
    by decide, by decide, by decide⟩

/-- OPEN parameters that meet R13 together with the defaults. -/
structure OpenConfig where
  params : OpenParams := OpenParams.smallest
  wellFormed : params.withDefaults.WellFormed := by exact OpenParams.smallest_wellFormed
  deriving Inhabited

/-- DESIGN CHOICE (notes/assumptions/1): the OPEN parameters of the device, some values that meet R13 and no more is
known of them. No body. -/
opaque Config.openParams : OpenConfig

/-- The configuration of the model's reset state: R12's defaults and the unknown OPEN parameters. -/
def Config.model : Config where
  toParams := Config.openParams.params.withDefaults
  wellFormed := Config.openParams.wellFormed

end Sys2Proof
end

