-- ==== Sys2Proof/WellFormed.lean ====
section
/-! DEFINITION. Which terms of `Instr` are commands that a command word can stand for (30_encoding.md R82, R84), and which
of those pass the operand value checks of their own rules (R89). -/

namespace Sys2Proof

/-- The operand fits its form (R84). Only the width of `immdiv` is not already the operand's type. -/
def Instr.operandFits (p : Params) : Instr → Bool
  | .nop _ => true
  | .init _ => true
  | .setPitch _ _ => true
  | .setShape _ _ => true
  | .setLevel _ _ => true
  | .setDivider _ v => decide (v.toNat < 2 ^ p.dividerBits)
  | .setInitialPhase _ _ => true
  | .setDividedPitch _ _ => true
  | .step _ => true
  | .sample _ => true
  | .readReg _ _ => true

/-- A command some legal command word stands for: its channel exists (R82) and its operand fits its form (R84, R88). -/
abbrev Instr.WellFormed (p : Params) (i : Instr) : Prop :=
  i.channel.toNat < p.nChannels ∧ i.operandFits p = true

/-- The operand value checks of R89: a SET_SHAPE code is at most 4 (R195), a READ_REG number at most 9 (R199), a
SET_DIVIDER value at least 1 (R139). -/
def Instr.operandLegal : Instr → Bool
  | .nop _ => true
  | .init _ => true
  | .setPitch _ _ => true
  | .setShape _ code => decide (code.toNat < 5)
  | .setLevel _ _ => true
  | .setDivider _ v => decide (v ≠ 0)
  | .setInitialPhase _ _ => true
  | .setDividedPitch _ _ => true
  | .step _ => true
  | .sample _ => true
  | .readReg _ r => decide (r.toNat < 10)

/-- A command that raises no fault: well formed, with a legal operand value. -/
abbrev Instr.Legal (p : Params) (i : Instr) : Prop :=
  i.WellFormed p ∧ i.operandLegal = true

end Sys2Proof
end

