-- ==== Sys2Proof/Machine/Operands.lean ====
section
/-! DEFINITION. Operand assembly and width conversion: the shifts and conversions of 00_scope.md R17 and R18, the operand
forms of 30_encoding.md R84, the shape codes of R90 and the register numbers of 10_state.md R43. -/

namespace Sys2Proof.Machine

/-- `a >> n` of R17: the floor of `a / 2^n`, for negative `a` too. -/
def asr (a : Int) (n : Nat) : Int := a / 2 ^ n

/-- `wrap32` of R18. -/
def wrap32 (v : Int) : U32 := BitVec.ofInt 32 v

/-- `wrap16s` of R18. -/
def wrap16s (v : Int) : Int := (v + 32768) % 65536 - 32768

/-- `clamp16` of R18. -/
def clamp16 (v : Int) : Int := min (max v (-32768)) 32767

/-- `zext_32` of R18. -/
def zext32 {n : Nat} (v : BitVec n) : U32 := v.setWidth 32

/-- `sext_32` of R18. -/
def sext32 (v : S16) : U32 := v.signExtend 32

/-- The 16 bits of an integer in the s16 range. -/
def s16OfInt (v : Int) : S16 := BitVec.ofInt 16 v

/-- `v[hi:lo]` of R16, with the width `len = hi - lo + 1`. -/
def bits {n : Nat} (v : BitVec n) (lo len : Nat) : BitVec len := v.extractLsb' lo len

/-- How many low bits of `DATA` the operand of a form takes (R84). -/
def formWidth (p : Params) : Form → Nat
  | .none => 0
  | .imm16s => 16
  | .imm16u => 16
  | .immdiv => p.dividerBits
  | .imm32 => 32
  | .shape3 => 3
  | .reg4 => 4

/-- Every reserved bit of `DATA` is zero (R84, R88): nothing stands above the operand. -/
def reservedClear (p : Params) (f : Form) (d : U32) : Bool :=
  d.toNat >>> formWidth p f == 0

/-- The `immdiv` operand, `DATA[DIVIDER_BITS-1:0]` (R84). -/
def immdivOperand (p : Params) (d : U32) : U32 :=
  BitVec.ofNat 32 (d.toNat % 2 ^ p.dividerBits)

/-- The shape codes of R90; 5 to 7 are reserved. -/
def shapeOfCode (code : BitVec 3) : Option Shape :=
  match code.toNat with
  | 0 => some .triangle
  | 1 => some .saw
  | 2 => some .ramp
  | 3 => some .trapezoid
  | 4 => some .sine
  | _ => none

/-- The code of a shape, as the `SHAPE` register holds it (R42, R90). -/
def shapeCode : Shape → BitVec 3
  | .triangle => 0
  | .saw => 1
  | .ramp => 2
  | .trapezoid => 3
  | .sine => 4

/-- The register numbers of R43; 10 to 15 are reserved. -/
def regOfNumber (r : BitVec 4) : Option RegName :=
  match r.toNat with
  | 0 => some .phase
  | 1 => some .phaseInc
  | 2 => some .divCounter
  | 3 => some .divider
  | 4 => some .dividedPhase
  | 5 => some .initialPhase
  | 6 => some .level
  | 7 => some .pitch
  | 8 => some .dividedPitch
  | 9 => some .shape
  | _ => none

/-- The number of a register (R43). -/
def regNumber : RegName → BitVec 4
  | .phase => 0
  | .phaseInc => 1
  | .divCounter => 2
  | .divider => 3
  | .dividedPhase => 4
  | .initialPhase => 5
  | .level => 6
  | .pitch => 7
  | .dividedPitch => 8
  | .shape => 9

end Sys2Proof.Machine
end

