-- ==== Sys2Proof/Decode.lean ====
section
/-! DEFINITION. Decoding and encoding of command words (30_encoding.md R81 to R89): the opcode map, the decode order, the
encoder, and `decodeTableWord`, which reads a word of spec/opcode_table.json. -/

namespace Sys2Proof

open Machine

/-- Why a command word is no command, in the order of R89. Each of them raises ILLEGAL_COMMAND (R222). -/
inductive DecodeError where
  /-- `OP` is 0xB to 0xF (R87). -/
  | reservedOpcode
  /-- `CH >= N_CHANNELS` (R82). -/
  | noSuchChannel
  /-- A reserved bit of `DATA` is set (R88). -/
  | reservedBits
  deriving DecidableEq, Repr

/-- The opcode map of R85. -/
def opcodeOfBits (op : BitVec 4) : Option Opcode :=
  match op.toNat with
  | 0x0 => some .nop
  | 0x1 => some .init
  | 0x2 => some .setPitch
  | 0x3 => some .setShape
  | 0x4 => some .setLevel
  | 0x5 => some .setDivider
  | 0x6 => some .setInitialPhase
  | 0x7 => some .setDividedPitch
  | 0x8 => some .step
  | 0x9 => some .sample
  | 0xA => some .readReg
  | _ => none

/-- The `OP` field of an opcode (R85). -/
def opcodeBits : Opcode → BitVec 4
  | .nop => 0x0
  | .init => 0x1
  | .setPitch => 0x2
  | .setShape => 0x3
  | .setLevel => 0x4
  | .setDivider => 0x5
  | .setInitialPhase => 0x6
  | .setDividedPitch => 0x7
  | .step => 0x8
  | .sample => 0x9
  | .readReg => 0xA

/-- The operand form of an opcode (R85). -/
def opcodeForm : Opcode → Form
  | .nop => .none
  | .init => .none
  | .setPitch => .imm16s
  | .setShape => .shape3
  | .setLevel => .imm16u
  | .setDivider => .immdiv
  | .setInitialPhase => .imm32
  | .setDividedPitch => .imm16s
  | .step => .none
  | .sample => .none
  | .readReg => .reg4

/-- `w[39:36]` (R81). -/
def commandOp (w : Command) : BitVec 4 := bits w 36 4

/-- `w[35:32]` (R81). -/
def commandCh (w : Command) : Channel := bits w 32 4

/-- `w[31:0]` (R81). -/
def commandData (w : Command) : U32 := bits w 0 32

/-- The command of an opcode, a channel and a `DATA` field, its operand assembled as its form says (R84). -/
def assembleInstr (p : Params) (o : Opcode) (ch : Channel) (d : U32) : Instr :=
  match o with
  | .nop => .nop ch
  | .init => .init ch
  | .setPitch => .setPitch ch (bits d 0 16)
  | .setShape => .setShape ch (bits d 0 3)
  | .setLevel => .setLevel ch (bits d 0 16)
  | .setDivider => .setDivider ch (immdivOperand p d)
  | .setInitialPhase => .setInitialPhase ch d
  | .setDividedPitch => .setDividedPitch ch (bits d 0 16)
  | .step => .step ch
  | .sample => .sample ch
  | .readReg => .readReg ch (bits d 0 4)

/-- The checks of R89 on the word alone, in its order. The operand value checks that follow them belong to the commands' own
rules and are made by their meanings (notes/assumptions/10). -/
def decode (p : Params) (w : Command) : Except DecodeError Instr :=
  match opcodeOfBits (commandOp w) with
  | none => .error .reservedOpcode
  | some o =>
    if p.nChannels ≤ (commandCh w).toNat then .error .noSuchChannel
    else if reservedClear p (opcodeForm o) (commandData w) then
      .ok (assembleInstr p o (commandCh w) (commandData w))
    else .error .reservedBits

/-- The `DATA` field of a command (R84): the operand, with zeros above it. -/
def operandData : Instr → U32
  | .nop _ => 0
  | .init _ => 0
  | .setPitch _ v => zext32 v
  | .setShape _ v => zext32 v
  | .setLevel _ v => zext32 v
  | .setDivider _ v => v
  | .setInitialPhase _ v => v
  | .setDividedPitch _ v => zext32 v
  | .step _ => 0
  | .sample _ => 0
  | .readReg _ r => zext32 r

/-- The command word of a command (R81). -/
def encode (i : Instr) : Command := opcodeBits i.opcode ++ i.channel ++ operandData i

/-- The command word whose bits spec/opcode_table.json numbers as `w`: the table's bit 0 is bit 0 of the word (R16, R81), and
bits at or above `nbits` are zero. -/
def tableCommand (nbits w : Nat) : Command := BitVec.ofNat 40 (w % 2 ^ nbits)

/-- What the decoder reads, in the configuration of the reset state, from a word of spec/opcode_table.json. -/
def decodeTableWord (nbits w : Nat) : Option Instr :=
  match decode Config.model.toParams (tableCommand nbits w) with
  | .ok i => some i
  | .error _ => none

end Sys2Proof
end

