-- ==== Sys2Proof/Machine/Memory.lean ====
section
/-! DEFINITION. The one address space, the wavetable ROM (20_memory.md R60 to R64): its map, `MemRead` on word addresses, and
`T[i]`. No command writes it (R61), so there is no write operation. -/

namespace Sys2Proof.Machine

/-- The eleven tables of R63. -/
inductive Table where
  | sine
  | tri1
  | tri10
  | tri100
  | ramp1
  | ramp10
  | ramp100
  | trap1
  | trap10
  | trap100
  | lutInc
  deriving DecidableEq, Repr

/-- The table id of R63. -/
def tableId : Table → Nat
  | .sine => 0
  | .tri1 => 1
  | .tri10 => 2
  | .tri100 => 3
  | .ramp1 => 4
  | .ramp10 => 5
  | .ramp100 => 6
  | .trap1 => 7
  | .trap10 => 8
  | .trap100 => 9
  | .lutInc => 10

/-- The table of an id; ids 11 to 15 are reserved and hold nothing (R63). -/
def tableOfId : Nat → Option Table
  | 0 => some .sine
  | 1 => some .tri1
  | 2 => some .tri10
  | 3 => some .tri100
  | 4 => some .ramp1
  | 5 => some .ramp10
  | 6 => some .ramp100
  | 7 => some .trap1
  | 8 => some .trap10
  | 9 => some .trap100
  | 10 => some .lutInc
  | _ => none

/-- `base(T)` of R63. -/
def tableBase (t : Table) : Nat := tableId t * 2 ^ 16

/-- `width(T)` of R63, in bytes. -/
def tableWidth : Table → Nat
  | .lutInc => 4
  | _ => 2

/-- `entries(T)` of R63. -/
def tableEntries (r : Rom) : Table → Nat
  | .sine => r.sine.length
  | .tri1 => r.tri1.length
  | .tri10 => r.tri10.length
  | .tri100 => r.tri100.length
  | .ramp1 => r.ramp1.length
  | .ramp10 => r.ramp10.length
  | .ramp100 => r.ramp100.length
  | .trap1 => r.trap1.length
  | .trap10 => r.trap10.length
  | .trap100 => r.trap100.length
  | .lutInc => r.lutInc.length

/-- Entry `i` of table `t`, signed for a wavetable word and unsigned for an increment word (R20, R64); `none` where the
table has no such entry. -/
def tableEntry (r : Rom) (t : Table) (i : Nat) : Option Int :=
  match t with
  | .sine => (r.sine[i]?).map BitVec.toInt
  | .tri1 => (r.tri1[i]?).map BitVec.toInt
  | .tri10 => (r.tri10[i]?).map BitVec.toInt
  | .tri100 => (r.tri100[i]?).map BitVec.toInt
  | .ramp1 => (r.ramp1[i]?).map BitVec.toInt
  | .ramp10 => (r.ramp10[i]?).map BitVec.toInt
  | .ramp100 => (r.ramp100[i]?).map BitVec.toInt
  | .trap1 => (r.trap1[i]?).map BitVec.toInt
  | .trap10 => (r.trap10[i]?).map BitVec.toInt
  | .trap100 => (r.trap100[i]?).map BitVec.toInt
  | .lutInc => (r.lutInc[i]?).map (fun w => (w.toNat : Int))

/-- `MemRead(addr, n)` of R20 and R64, with `addr = {table_id[3:0], index[15:0]}` (R62). `none` where R63 puts no word of
`n` bytes at `addr`: a reserved table id, an index past the table's end, or another width. -/
def memRead (r : Rom) (addr n : Nat) : Option Int :=
  match tableOfId (addr / 2 ^ 16) with
  | some t => if n = tableWidth t then tableEntry r t (addr % 2 ^ 16) else none
  | none => none

/-- `T[i]` of R20. Every index a command computes is in the table (R64), so the free value of `Config.absentWord` is never
read. -/
def romWord (r : Rom) (t : Table) (i : Nat) : Int :=
  (tableEntry r t i).getD (Config.absentWord (tableId t) i)

end Sys2Proof.Machine
end

