-- ==== Sys2Proof/Machine/Converter.lean ====
section
/-! DEFINITION. The pitch-to-increment converter `INC` of 40_pitch_converter.md R110 to R116. It reads the configuration
only. -/

namespace Sys2Proof.Machine

/-- `s`, the octave shift count (R111): the floor of `pitch / K_OCTAVE`. -/
def octaveShift (p : Params) (pitch : S16) : Int := pitch.toInt / (p.kOctave : Int)

/-- `f`, the folded pitch (R111). -/
def foldedPitch (p : Params) (pitch : S16) : Int := pitch.toInt - octaveShift p pitch * (p.kOctave : Int)

/-- `i`, the index into `LUT_INC` (R113). -/
def incIndex (p : Params) (pitch : S16) : Nat := (foldedPitch p pitch).toNat >>> p.incFracBits

/-- `fr`, the interpolation fraction (R113). -/
def incFraction (p : Params) (pitch : S16) : Nat := (foldedPitch p pitch).toNat &&& (2 ^ p.incFracBits - 1)

/-- `base`, the interpolated increment of the base octave (R114). -/
def incBase (p : Params) (pitch : S16) : Int :=
  let a := romWord p.rom .lutInc (incIndex p pitch)
  let b := romWord p.rom .lutInc (incIndex p pitch + 1)
  a + asr ((b - a) * (incFraction p pitch : Int)) p.incFracBits

/-- The octave shift of a base increment (R115, R116). -/
def shiftOctaves (base s : Int) : U32 :=
  if 0 ≤ s then wrap32 (base * 2 ^ s.toNat) else wrap32 (asr base (-s).toNat)

/-- `INC(pitch)`, the whole function (R115). -/
def inc (p : Params) (pitch : S16) : U32 := shiftOctaves (incBase p pitch) (octaveShift p pitch)

end Sys2Proof.Machine
end

