-- ==== Sys2Proof/Machine/Bank.lean ====
section
/-! DEFINITION. One channel's register bank (10_state.md R32 to R43) and the values INIT and reset give it
(43_control_commands.md R191). -/

namespace Sys2Proof.Machine

/-- The registers of one channel. `divCounter` and `divider` are `DIVIDER_BITS` bits wide (R35, R36) and `DIVIDER_BITS` is
at most 32 (R13): they are held in 32 bits (DESIGN CHOICE, notes/assumptions/7), and `Safety.BankInv` says the bits above are zero. `shape` is the 3-bit `SHAPE`
register, which never holds a reserved code (R42; DEDUCED, notes/assumptions/8); `shapeCode` gives its bits. -/
structure Bank where
  phase : U32
  phaseInc : U32
  divCounter : U32
  divider : U32
  dividedPhase : U32
  initialPhase : U32
  level : U16
  pitch : S16
  dividedPitch : S16
  shape : Shape
  deriving DecidableEq, Repr

/-- The value of every register after INIT or reset (R191). -/
def initBank (p : Params) : Bank where
  phase := 0
  phaseInc := inc p p.defaultPitch
  divCounter := 0
  divider := 1
  dividedPhase := 0
  initialPhase := 0
  level := 65535
  pitch := p.defaultPitch
  dividedPitch := p.defaultPitch
  shape := p.defaultShape

/-- A register as READ_REG returns it: 16-bit signed ones sign-extended, the others zero-extended (R199). -/
def readRegister (b : Bank) : RegName → U32
  | .phase => b.phase
  | .phaseInc => b.phaseInc
  | .divCounter => zext32 b.divCounter
  | .divider => zext32 b.divider
  | .dividedPhase => b.dividedPhase
  | .initialPhase => b.initialPhase
  | .level => zext32 b.level
  | .pitch => sext32 b.pitch
  | .dividedPitch => sext32 b.dividedPitch
  | .shape => zext32 (shapeCode b.shape)

end Sys2Proof.Machine
end

