-- ==== Sys2Proof/Machine/State.lean ====
section
/-! DEFINITION. The state of the block as plain data, the ways a step can stop, and the state after power-on reset
(10_state.md, 70_reset_and_hazards.md R250 and R251). -/

namespace Sys2Proof.Machine

/-- Reasons a step stops with a fault. The block's own faults ILLEGAL_COMMAND and DIVIDER_ZERO are NOT here: their entry
(60_exceptions.md R224) is a next state, in which the block is halted. -/
inductive Fault where
  /-- Raised by STEP in a state whose channel holds `DIVIDER = 0`, which no run from reset reaches (R36, R44): the
  "division-by-zero class fault" of the source (R139). Safe: the machine stops where the spec gives no quotient. -/
  | divisionByZero
  deriving DecidableEq, Repr

/-- Reasons a step is refused. -/
inductive Refusal where
  /-- Raised by `exec` for an instruction that has no meaning in the model. Every instruction has one, so nothing raises
  it. Safe. -/
  | notModelled (mnemonic : String)
  deriving DecidableEq, Repr

/-- The two faults of the block (60_exceptions.md R221). -/
inductive Cause where
  | illegalCommand
  | dividerZero
  deriving DecidableEq, Repr

/-- The global status of R45: `status.FAULT`, 1 bit, and `status.CAUSE`, 4 bits. -/
structure Status where
  fault : Bool
  cause : BitVec 4
  deriving DecidableEq, Repr

/-- The block and its two ports. `banks` and `status` are its registers (R30). `cfg` carries the configuration and the ROM,
which never change (R47, R12); `commands` holds the command words the host has yet to present, first one first (R31), and
`responses` the response words returned so far, first one first (R263). The last three are the model's own fields, named in
notes/assumptions/2 and 3. -/
structure State where
  cfg : Config
  banks : List Bank
  status : Status
  commands : List Command
  responses : List Response
  deriving DecidableEq, Repr

/-- Power-on reset of a block of configuration `c` (R250, R251): INIT's values in every bank, no fault, nothing presented
and nothing returned yet. -/
def State.powerOn (c : Config) : State where
  cfg := c
  banks := List.replicate c.nChannels (initBank c.toParams)
  status := { fault := false, cause := 0 }
  commands := []
  responses := []

/-- The machine right after reset, in the configuration of `Config.model`. -/
def State.reset : State := State.powerOn Config.model

end Sys2Proof.Machine
end

