-- ==== Sys2Proof/Machine/Ops.lean ====
section
/-! DEFINITION. The named operations over the registers and the ports: the channel's bank, the response, fault entry and the
halted block (60_exceptions.md R224), and `onChannel`, the checks every command makes before its own rule runs
(30_encoding.md R89). -/

namespace Sys2Proof.Machine

/-- The bank a `CH` field names; `none` when `CH >= N_CHANNELS` (R32, R82). -/
def State.bank? (s : State) (ch : Channel) : Option Bank :=
  if ch.toNat < s.cfg.nChannels then s.banks[ch.toNat]? else none

/-- `ch[c] <- b`: one channel's bank written, every other left as it was (R19). -/
def State.setBank (s : State) (ch : Channel) (b : Bank) : State :=
  { s with banks := s.banks.set ch.toNat b }

/-- The response word of R83. -/
def responseWord (st : BitVec 4) (rdata : U32) : Response := st ++ rdata

/-- The `STATUS` field of a response (R83). -/
def responseStatus (r : Response) : BitVec 4 := bits r 32 4

/-- The `RDATA` field of a response (R83). -/
def responseData (r : Response) : U32 := bits r 0 32

/-- `respond(d)` of R21: status OK and the data `d`. -/
def State.respond (s : State) (d : U32) : State :=
  { s with responses := s.responses ++ [responseWord 0 d] }

/-- The cause codes of R221. -/
def causeCode : Cause → BitVec 4
  | .illegalCommand => 1
  | .dividerZero => 2

/-- Fault entry, R224: every register keeps its value, the status takes the fault and its code, the response carries the
code. There is no return from it (R225): only power-on reset, `State.powerOn`, clears a fault. -/
def State.raise (s : State) (f : Cause) : State :=
  { s with
    status := { fault := true, cause := causeCode f }
    responses := s.responses ++ [responseWord (causeCode f) 0] }

/-- What a halted block does with a command, R224: no register changes and the response carries `status.CAUSE`. -/
def State.haltedResponse (s : State) : State :=
  { s with responses := s.responses ++ [responseWord s.status.cause 0] }

/-- The outcome of one command or step of this machine. -/
abbrev Result := Host.Outcome State Fault Refusal

/-- What every command does before its own rule (R89): a halted block only answers, a channel that does not exist raises
ILLEGAL_COMMAND, and otherwise the rule runs on the channel's bank. -/
def onChannel (ch : Channel) (s : State) (rule : Bank → Result) : Result :=
  if s.status.fault then .next s.haltedResponse
  else
    match s.bank? ch with
    | none => .next (s.raise .illegalCommand)
    | some b => rule b

/-- The end of a rule that writes its channel's bank and responds nothing: status OK, data 0 (R21). -/
def State.writeBank (s : State) (ch : Channel) (b : Bank) : Result := .next ((s.setBank ch b).respond 0)

/-- Power-on reset of a running block (R250): its configuration and ROM stay, everything else is as after reset; words the
host has not presented and the responses are dropped (DESIGN CHOICE, notes/assumptions/11). -/
def State.powerCycle (s : State) : State := State.powerOn s.cfg

end Sys2Proof.Machine
end

