-- ==== Sys2Proof/Machine/Control.lean ====
section
/-! DEFINITION. The control and parameter commands of 43_control_commands.md: NOP, INIT, the four setters and READ_REG. -/

namespace Sys2Proof.Machine

/-- NOP (R190). -/
def execNop (ch : Channel) (s : State) : Result :=
  onChannel ch s fun _ => .next (s.respond 0)

/-- INIT (R191, R192). -/
def execInit (ch : Channel) (s : State) : Result :=
  onChannel ch s fun _ => s.writeBank ch (initBank s.cfg.toParams)

/-- SET_SHAPE (R195); the codes 5 to 7 raise ILLEGAL_COMMAND. -/
def execSetShape (ch : Channel) (code : BitVec 3) (s : State) : Result :=
  onChannel ch s fun b =>
    match shapeOfCode code with
    | none => .next (s.raise .illegalCommand)
    | some sh => s.writeBank ch { b with shape := sh }

/-- SET_LEVEL (R196). -/
def execSetLevel (ch : Channel) (level : U16) (s : State) : Result :=
  onChannel ch s fun b => s.writeBank ch { b with level := level }

/-- SET_INITIAL_PHASE (R197). -/
def execSetInitialPhase (ch : Channel) (phase : U32) (s : State) : Result :=
  onChannel ch s fun b => s.writeBank ch { b with initialPhase := phase }

/-- SET_DIVIDED_PITCH (R198). -/
def execSetDividedPitch (ch : Channel) (pitch : S16) (s : State) : Result :=
  onChannel ch s fun b => s.writeBank ch { b with dividedPitch := pitch }

/-- READ_REG (R199); the numbers 10 to 15 raise ILLEGAL_COMMAND. -/
def execReadReg (ch : Channel) (reg : BitVec 4) (s : State) : Result :=
  onChannel ch s fun b =>
    match regOfNumber reg with
    | none => .next (s.raise .illegalCommand)
    | some r => .next (s.respond (readRegister b r))

end Sys2Proof.Machine
end

