-- ==== Sys2Proof/Machine/Flags.lean ====
section
/-! DEFINITION. The one flag-like value of the block. It has no condition codes and no flag register (10_state.md R46); the
wraparound of one STEP is local to it. -/

namespace Sys2Proof.Machine

/-- `wrapped` of 41_phase_divider.md R132 and R134: the new `PHASE` is numerically smaller than the increment just added. -/
def wrapDetected (newPhase inc : U32) : Bool := decide (newPhase.toNat < inc.toNat)

end Sys2Proof.Machine
end

