-- ==== Sys2Proof/Machine/Phase.lean ====
section
/-! DEFINITION. The phase accumulator and clock divider: STEP (41_phase_divider.md R130 to R137) and SET_DIVIDER (R138 to
R140). -/

namespace Sys2Proof.Machine

/-- `p'`, the 32-bit wrapping add of R131. -/
def newPhase (b : Bank) : U32 := b.phase + b.phaseInc

/-- `k` after the wrap check (R133): one more modulo the divider on a wrap, else as it was. -/
def newCounter (b : Bank) : Nat :=
  if wrapDetected (newPhase b) b.phaseInc then (b.divCounter.toNat + 1) % b.divider.toNat else b.divCounter.toNat

/-- The sum of R135 before its reduction modulo `2^32`: both divisions floor, and `2^32 div d` is exact. -/
def dividedSum (phase d k : Nat) : Nat := phase / d + 2 ^ 32 / d * k

/-- The bank after one tick (R132). -/
def stepBank (b : Bank) : Bank :=
  { b with
    phase := newPhase b
    divCounter := BitVec.ofNat 32 (newCounter b)
    dividedPhase := wrap32 (dividedSum (newPhase b).toNat b.divider.toNat (newCounter b)) }

/-- STEP (R132). `DIVIDER >= 1` in every state a run reaches (R44); the fault stands for the states outside them
(DESIGN CHOICE, notes/assumptions/9). -/
def execStep (ch : Channel) (s : State) : Result :=
  onChannel ch s fun b =>
    if b.divider = 0 then .fault .divisionByZero else s.writeBank ch (stepBank b)

/-- The bank after `ch[c].DIVIDER <- v`, `ch[c].DIV_COUNTER <- ch[c].DIV_COUNTER mod v` (R138). -/
def loadDivider (b : Bank) (v : U32) : Bank :=
  { b with divider := v, divCounter := b.divCounter % v }

/-- SET_DIVIDER (R138). A value wider than `DIVIDER_BITS` has a reserved bit set, checked before the value 0 (R89, R139). -/
def execSetDivider (ch : Channel) (v : U32) (s : State) : Result :=
  onChannel ch s fun b =>
    if reservedClear s.cfg.toParams .immdiv v then
      if v = 0 then .next (s.raise .dividerZero) else s.writeBank ch (loadDivider b v)
    else .next (s.raise .illegalCommand)

end Sys2Proof.Machine
end

