-- ==== Sys2Proof/Machine/Pitch.lean ====
section
/-! DEFINITION. SET_PITCH, 40_pitch_converter.md R117. -/

namespace Sys2Proof.Machine

/-- The bank after `ch[c].PITCH <- p`, `ch[c].PHASE_INC <- INC(p)` (R117). -/
def loadPitch (p : Params) (b : Bank) (pitch : S16) : Bank :=
  { b with pitch := pitch, phaseInc := inc p pitch }

/-- SET_PITCH (R117, R118). -/
def execSetPitch (ch : Channel) (pitch : S16) (s : State) : Result :=
  onChannel ch s fun b => s.writeBank ch (loadPitch s.cfg.toParams b pitch)

end Sys2Proof.Machine
end

