-- ==== Sys2Proof/Machine/Synth.lean ====
section
/-! DEFINITION. The wavetable synthesizer: the helper functions and `SAMPLE_VALUE` of 42_synthesizer.md R150 to R171, and
SAMPLE (R172). -/

namespace Sys2Proof.Machine

/-- `ep`, the effective phase (R151). -/
def effectivePhase (b : Bank) : U32 := b.initialPhase + b.dividedPhase

/-- `i` of R153: the top `B` bits of the phase. -/
def lookupIndex (B : Nat) (ep : U32) : Nat := ep.toNat >>> (32 - B)

/-- `fr` of R153: the 16 bits below the index. -/
def lookupFraction (B : Nat) (ep : U32) : Nat := (ep.toNat >>> (16 - B)) &&& 0xFFFF

/-- `Lookup(T, B, ep)` (R153). -/
def lookup (r : Rom) (t : Table) (B : Nat) (ep : U32) : Int :=
  let a := romWord r t (lookupIndex B ep)
  let b := romWord r t ((lookupIndex B ep + 1) % 2 ^ B)
  a + asr ((b - a) * (lookupFraction B ep : Int)) 16

/-- `Scale(v, level)` (R156). -/
def scale (v : Int) (level : U16) : Int := asr (v * (level.toNat : Int)) 16

/-- The default triangle reference shape (R158). -/
def triRefDefault (ep : U32) : Int :=
  let u : Int := (ep.toNat >>> 15 : Nat)
  if u < 65536 then u - 32768 else 98303 - u

/-- The piece of a triangle that counts at a phase. -/
def triPieceAt (first : TriPiece) (rest : List TriPiece) (ep : U32) : TriPiece :=
  rest.foldl (fun q r => if r.start.toNat ≤ ep.toNat then r else q) first

/-- The value of one piece at a phase. -/
def triPieceValue (q : TriPiece) (ep : U32) : S16 :=
  s16OfInt (q.base + asr (((ep.toNat : Int) - q.start.toNat) * q.slope) q.shift)

/-- `TRI_REF(ep)` (R158), the parameter of R12. -/
def triRef (p : Params) (ep : U32) : Int :=
  match p.triRef with
  | .default158 => triRefDefault ep
  | .pieces first rest => (triPieceValue (triPieceAt first rest ep) ep).toInt

/-- `TRAP_REF(ep)` (R159). -/
def trapRef (p : Params) (ep : U32) : Int := clamp16 (2 * triRef p ep)

/-- `RAMP_REF(ep)` (R160). -/
def rampRef (p : Params) (ep : U32) : Int :=
  let r : Int := p.rampRefOffset + (ep.toNat >>> 16 : Nat)
  match p.rampRefConv with
  | .wrap => wrap16s r
  | .saturate => clamp16 r

/-- `Weight(dp, lo, hi)` (R161). -/
def weight (dp lo hi : Int) : Int := ((dp - lo) * 65535) / (hi - lo)

/-- `Mix(a, b, w)` (R162). -/
def mix (a b w : Int) : Int := a + asr ((b - a) * w) 16

/-- `Banded(ref, T10, T100, ep, dp)` (R164). -/
def banded (p : Params) (ref : Int) (t10 t100 : Table) (ep : U32) (dp : S16) : Int :=
  if p.p100.toInt < dp.toInt then lookup p.rom t100 p.bandBits ep
  else if p.p10.toInt < dp.toInt then
    mix (lookup p.rom t10 p.bandBits ep) (lookup p.rom t100 p.bandBits ep)
      (weight dp.toInt p.p10.toInt p.p100.toInt)
  else if p.p1.toInt < dp.toInt then
    mix ref (lookup p.rom t10 p.bandBits ep) (weight dp.toInt p.p1.toInt p.p10.toInt)
  else ref

/-- `sh`, the shape the synthesizer computes (R152). -/
def selectedShape (p : Params) (b : Bank) : Shape := if p.forceSaw then .saw else b.shape

/-- The value of one shape after level scaling (R165 to R170). -/
def shapeValue (p : Params) (sh : Shape) (ep : U32) (dp : S16) (level : U16) : Int :=
  match sh with
  | .sine => scale (lookup p.rom .sine 10 ep) level
  | .triangle => scale (banded p (triRef p ep) .tri10 .tri100 ep dp) level
  | .ramp => scale (banded p (rampRef p ep) .ramp10 .ramp100 ep dp) level
  | .saw => wrap16s (-scale (banded p (rampRef p ep) .ramp10 .ramp100 ep dp) level)
  | .trapezoid => scale (banded p (trapRef p ep) .trap10 .trap100 ep dp) level

/-- `SAMPLE_VALUE(c)` (R165) of the channel whose bank is `b`. -/
def sampleValue (p : Params) (b : Bank) : Int :=
  shapeValue p (selectedShape p b) (effectivePhase b) b.dividedPitch b.level

/-- SAMPLE (R172). -/
def execSample (ch : Channel) (s : State) : Result :=
  onChannel ch s fun b => .next (s.respond (sext32 (s16OfInt (sampleValue s.cfg.toParams b))))

end Sys2Proof.Machine
end

