-- ==== Sys2Proof/Machine/Dispatch.lean ====
section
/-! DEFINITION. The dispatch of a command to its meaning, one arm per constructor of `Instr`. -/

namespace Sys2Proof.Machine

def exec (i : Instr) (s : State) : Host.Outcome State Fault Refusal :=
  match i with
  | .nop ch => Sys2Proof.Machine.execNop ch s
  | .init ch => Sys2Proof.Machine.execInit ch s
  | .setPitch ch pitch => Sys2Proof.Machine.execSetPitch ch pitch s
  | .setShape ch code => Sys2Proof.Machine.execSetShape ch code s
  | .setLevel ch level => Sys2Proof.Machine.execSetLevel ch level s
  | .setDivider ch divider => Sys2Proof.Machine.execSetDivider ch divider s
  | .setInitialPhase ch phase => Sys2Proof.Machine.execSetInitialPhase ch phase s
  | .setDividedPitch ch pitch => Sys2Proof.Machine.execSetDividedPitch ch pitch s
  | .step ch => Sys2Proof.Machine.execStep ch s
  | .sample ch => Sys2Proof.Machine.execSample ch s
  | .readReg ch reg => Sys2Proof.Machine.execReadReg ch reg s

end Sys2Proof.Machine
end

