-- ==== Sys2Proof/Machine/Fetch.lean ====
section
/-! DEFINITION. Taking the next command from the command port and running it (30_encoding.md R80, R89; 20_memory.md R70). The
block fetches nothing (10_state.md R31): the host presents the words. -/

namespace Sys2Proof.Machine

/-- One presented command word, executed to completion (R89): a halted block does not decode it (R224), a word the decoder
refuses raises ILLEGAL_COMMAND (R222), and any other runs its command. -/
def runCommand (w : Command) (s : State) : Result :=
  if s.status.fault then .next s.haltedResponse
  else
    match decode s.cfg.toParams w with
    | .error _ => .next (s.raise .illegalCommand)
    | .ok i => exec i s

/-- One step: the block takes the first word the host presents; with none presented it is idle and holds its state
(60_exceptions.md R236, 70_reset_and_hazards.md R252). -/
def serve (s : State) : Result :=
  match s.commands with
  | [] => .next s
  | w :: rest => runCommand w { s with commands := rest }

/-- The host presents `w` before anything else. -/
def State.present (s : State) (w : Command) : State := { s with commands := w :: s.commands }

end Sys2Proof.Machine
end

