-- ==== Sys2Proof/Machine/Step.lean ====
section
/-! DEFINITION. The step of the machine, and the placing of one command word where the next step takes it from. -/

namespace Sys2Proof.Machine

/-- One step of the block: one command word of the host, executed to completion (20_memory.md R70). -/
def step (s : State) : Host.Outcome State Fault Refusal := Sys2Proof.Machine.serve s

/-- `s` with the word of spec/opcode_table.json as the first one the host presents. -/
def State.withFetchWord (s : State) (nbits w : Nat) : State := s.present (Sys2Proof.tableCommand nbits w)

end Sys2Proof.Machine
end

