-- ==== Sys2Proof/Machine/Assembler.lean ====
section
/-! DEFINITION. The assembler of 30_encoding.md R92 and its pseudo-commands (R93): `assemble` on operands already read as tokens
(a decimal number, a hexadecimal number or a name), `assembleLine` on a line of text. It is no part of the block; it says which
commands a line of assembly stands for. -/

namespace Sys2Proof.Machine

/-- The mnemonic of an opcode (R85). -/
def mnemonic : Opcode → String
  | .nop => "NOP"
  | .init => "INIT"
  | .setPitch => "SET_PITCH"
  | .setShape => "SET_SHAPE"
  | .setLevel => "SET_LEVEL"
  | .setDivider => "SET_DIVIDER"
  | .setInitialPhase => "SET_INITIAL_PHASE"
  | .setDividedPitch => "SET_DIVIDED_PITCH"
  | .step => "STEP"
  | .sample => "SAMPLE"
  | .readReg => "READ_REG"

/-- The operand of an assembly line, as R92 lets it be written. -/
inductive AsmOperand where
  | none
  | dec (v : Int)
  | hex (v : Nat)
  | shapeName (sh : Shape)
  | regName (r : RegName)
  deriving DecidableEq, Repr

/-- A decimal or hexadecimal unsigned value below `bound`; anything else is an assembly error. -/
def asmUnsigned (bound : Nat) : AsmOperand → Option Nat
  | .dec v => if 0 ≤ v ∧ v < bound then some v.toNat else none
  | .hex v => if v < bound then some v else none
  | _ => none

/-- An `imm16s` operand: a decimal integer in the s16 range or a 16-bit hexadecimal pattern (R92). -/
def asmSigned16 : AsmOperand → Option S16
  | .dec v => if -32768 ≤ v ∧ v ≤ 32767 then some (BitVec.ofInt 16 v) else none
  | .hex v => if v < 65536 then some (BitVec.ofNat 16 v) else none
  | _ => none

/-- A `shape3` operand: a shape's name or a number 0 to 4 (R92). -/
def asmShape : AsmOperand → Option (BitVec 3)
  | .shapeName sh => some (shapeCode sh)
  | o => (asmUnsigned 5 o).map (BitVec.ofNat 3)

/-- A `reg4` operand: a register's name or a number 0 to 9 (R92). -/
def asmReg : AsmOperand → Option (BitVec 4)
  | .regName r => some (regNumber r)
  | o => (asmUnsigned 10 o).map (BitVec.ofNat 4)

/-- `MNEMONIC ch` or `MNEMONIC ch, operand` (R92); `none` is an assembly error. -/
def assemble (p : Params) (o : Opcode) (ch : Nat) (x : AsmOperand) : Option Instr :=
  let c : Channel := BitVec.ofNat 4 ch
  if p.nChannels ≤ ch ∨ 16 ≤ ch then none
  else
    match o with
    | .nop => if x = .none then some (.nop c) else none
    | .init => if x = .none then some (.init c) else none
    | .step => if x = .none then some (.step c) else none
    | .sample => if x = .none then some (.sample c) else none
    | .setPitch => (asmSigned16 x).map (.setPitch c)
    | .setDividedPitch => (asmSigned16 x).map (.setDividedPitch c)
    | .setShape => (asmShape x).map (.setShape c)
    | .setLevel => (asmUnsigned 65536 x).map fun v => .setLevel c (BitVec.ofNat 16 v)
    | .setDivider => (asmUnsigned (2 ^ p.dividerBits) x).map fun v => .setDivider c (BitVec.ofNat 32 v)
    | .setInitialPhase => (asmUnsigned (2 ^ 32) x).map fun v => .setInitialPhase c (BitVec.ofNat 32 v)
    | .readReg => (asmReg x).map (.readReg c)

/-- The pseudo-commands of R93. -/
inductive Pseudo where
  | tick (ch : Channel)
  | initAll
  | stepN (ch : Channel) (k : Nat)
  deriving DecidableEq, Repr

/-- The commands a pseudo-command expands to (R93). -/
def expand (p : Params) : Pseudo → List Instr
  | .tick ch => [.step ch, .sample ch]
  | .initAll => (List.range p.nChannels).map fun c => .init (BitVec.ofNat 4 c)
  | .stepN ch k => List.replicate k (.step ch)

/-! ### Lines of text -/

/-- The name of a shape in assembly (R90, R92). -/
def shapeNameOf : Shape → String
  | .triangle => "TRIANGLE"
  | .saw => "SAW"
  | .ramp => "RAMP"
  | .trapezoid => "TRAPEZOID"
  | .sine => "SINE"

/-- The name of a register (10_state.md R43). -/
def regNameOf : RegName → String
  | .phase => "PHASE"
  | .phaseInc => "PHASE_INC"
  | .divCounter => "DIV_COUNTER"
  | .divider => "DIVIDER"
  | .dividedPhase => "DIVIDED_PHASE"
  | .initialPhase => "INITIAL_PHASE"
  | .level => "LEVEL"
  | .pitch => "PITCH"
  | .dividedPitch => "DIVIDED_PITCH"
  | .shape => "SHAPE"

def allOpcodes : List Opcode :=
  [.nop, .init, .setPitch, .setShape, .setLevel, .setDivider, .setInitialPhase, .setDividedPitch, .step, .sample, .readReg]

def allShapes : List Shape := [.triangle, .saw, .ramp, .trapezoid, .sine]

def allRegNames : List RegName :=
  [.phase, .phaseInc, .divCounter, .divider, .dividedPhase, .initialPhase, .level, .pitch, .dividedPitch, .shape]

/-- The value of a digit, decimal or hexadecimal. -/
def digitValue (c : Char) : Nat :=
  if '0' ≤ c ∧ c ≤ '9' then c.toNat - '0'.toNat
  else if 'a' ≤ c ∧ c ≤ 'f' then c.toNat - 'a'.toNat + 10
  else if 'A' ≤ c ∧ c ≤ 'F' then c.toNat - 'A'.toNat + 10
  else 16

/-- A number of at least one digit in the given base. -/
def readNumber (base : Nat) (cs : List Char) : Option Nat :=
  if cs ≠ [] ∧ cs.all (fun c => digitValue c < base) then some (cs.foldl (fun n c => n * base + digitValue c) 0) else none

/-- An operand as R92 writes it: `0x` and hexadecimal digits, a decimal integer, or a name. R92 does not say whether an unsigned
value, a shape code or a register number may carry a minus sign before zero: `-0` is read as the decimal 0, which every form takes;
no plus sign is read (DESIGN CHOICE, notes/assumptions/14). -/
def readOperand : List Char → Option AsmOperand
  | '0' :: 'x' :: cs => (readNumber 16 cs).map .hex
  | '-' :: cs => (readNumber 10 cs).map fun n => .dec (-(n : Int))
  | cs =>
    match allShapes.find? fun sh => (shapeNameOf sh).toList == cs with
    | some sh => some (.shapeName sh)
    | none =>
      match allRegNames.find? fun r => (regNameOf r).toList == cs with
      | some r => some (.regName r)
      | none => (readNumber 10 cs).map fun n => .dec n

/-- The characters without the spaces at both ends. -/
def trimSpaces (cs : List Char) : List Char :=
  ((cs.dropWhile (· == ' ')).reverse.dropWhile (· == ' ')).reverse

/-- The mnemonic of a line and what stands between its commas; spaces around each part are dropped (DESIGN CHOICE,
notes/assumptions/14). -/
def readParts (line : List Char) : List Char × List (List Char) :=
  let cs := trimSpaces line
  let rest := trimSpaces (cs.dropWhile (· ≠ ' '))
  (cs.takeWhile (· ≠ ' '), if rest = [] then [] else (rest.splitOn ',').map trimSpaces)

/-- An existing channel, written in decimal (R92). -/
def readChannel (p : Params) (cs : List Char) : Option Channel :=
  match readNumber 10 cs with
  | some n => if n < p.nChannels ∧ n < 16 then some (BitVec.ofNat 4 n) else none
  | none => none

/-- A line with a command's mnemonic: `MNEMONIC ch` or `MNEMONIC ch, operand` (R92). -/
def assembleCommand (p : Params) (o : Opcode) : List (List Char) → Option Instr
  | [ch] => (readNumber 10 ch).bind fun n => assemble p o n .none
  | [ch, x] => (readNumber 10 ch).bind fun n => (readOperand x).bind fun v => assemble p o n v
  | _ => none

/-- A line with a pseudo-command's name: `TICK ch`, `INIT_ALL` or `STEP_N ch, k` (R93). R93 does not say how the count `k` is
written: it is read as a decimal number, a hexadecimal one is an assembly error, and 0 is read and expands to no command (DESIGN
CHOICE, notes/assumptions/14). -/
def readPseudo (p : Params) (name : List Char) (parts : List (List Char)) : Option Pseudo :=
  if name = "TICK".toList then
    match parts with
    | [ch] => (readChannel p ch).map .tick
    | _ => none
  else if name = "INIT_ALL".toList then if parts = [] then some .initAll else none
  else if name = "STEP_N".toList then
    match parts with
    | [ch, k] => (readChannel p ch).bind fun c => (readNumber 10 k).map fun n => .stepN c n
    | _ => none
  else none

/-- The commands a line of assembly stands for (R92, R93); `none` is an assembly error. -/
def assembleLine (p : Params) (line : String) : Option (List Instr) :=
  let parts := readParts line.toList
  match allOpcodes.find? fun o => (mnemonic o).toList == parts.1 with
  | some o => (assembleCommand p o parts.2).map fun i => [i]
  | none => (readPseudo p parts.1 parts.2).map (expand p)

end Sys2Proof.Machine
end

