-- ==== Sys2Proof/Safety.lean ====
section
/-! DEFINITION. What counts as a good state and a good run, in the terms the statements use: the invariants of 10_state.md R44
and R45, what the responses of a run tell (70_reset_and_hazards.md R263), and repeated ticks (41_phase_divider.md R137). -/

namespace Sys2Proof.Safety

open Machine

/-- What every reachable bank keeps: `DIVIDER >= 1`, `DIV_COUNTER < DIVIDER` (R44), and both registers fit their
`DIVIDER_BITS` bits (R35, R36). `SHAPE <= 4` is the type of the register. -/
abbrev BankInv (p : Params) (b : Bank) : Prop :=
  1 ≤ b.divider.toNat ∧ b.divCounter.toNat < b.divider.toNat ∧ b.divider.toNat < 2 ^ p.dividerBits

/-- The values `status` takes (R45, R221): no fault and cause 0, or a fault and its code. -/
abbrev StatusInv (st : Status) : Prop :=
  (st.fault = false ∧ st.cause = 0) ∨ (st.fault = true ∧ (st.cause = 1 ∨ st.cause = 2))

/-- The invariant of the machine: `N_CHANNELS` banks (R32), each as R44 says, and a legal status. -/
abbrev MachineInv (s : State) : Prop :=
  s.banks.length = s.cfg.nChannels ∧ (∀ b ∈ s.banks, BankInv s.cfg.toParams b) ∧ StatusInv s.status

/-- The responses tell whether the block is halted: while it is not, every response so far has `STATUS = 0`; once it is, the
last one carries the cause, which is not 0 (R224, R263). -/
def ResponsesInv (s : State) : Prop :=
  if s.status.fault then
    s.status.cause ≠ 0 ∧ s.responses.getLast?.map responseStatus = some s.status.cause
  else ∀ r ∈ s.responses, responseStatus r = 0

/-- R263: "A run ends well when its last response has `STATUS = 0`". A run of no command has no last
response; that it ends well is the model's choice (DESIGN CHOICE, notes/assumptions/16). -/
def EndsWell (s : State) : Prop :=
  match s.responses.getLast? with
  | none => True
  | some r => responseStatus r = 0

/-- A block of configuration `c` after power-on, with the command words the host is going to present (R263). -/
def powerOnWith (c : Config) (ws : List Command) : State := { State.powerOn c with commands := ws }

/-- Commands executed one after another. -/
def execAll : List Instr → State → Result
  | [], s => .next s
  | i :: is, s =>
    match exec i s with
    | .next t => execAll is t
    | .fault f => .fault f
    | .refused r => .refused r

/-- `n` ticks: STEP executed `n` times on one channel. -/
def ticks (n : Nat) (ch : Channel) (s : State) : Result := execAll (List.replicate n (.step ch)) s

/-- In a run of commands, how many STEPs of channel `ch` executed (the block not halted) for which the channel's bank before and
after is as `p` says. -/
def countTicks (ch : Channel) (p : Bank → Bank → Bool) : List Instr → State → Nat
  | [], _ => 0
  | i :: is, s =>
    match exec i s with
    | .next t =>
      (match s.bank? ch, t.bank? ch with
        | some b, some b' => if i = .step ch ∧ s.status.fault = false ∧ p b b' = true then 1 else 0
        | _, _ => 0) + countTicks ch p is t
    | .fault _ => 0
    | .refused _ => 0

/-- The wraps of `PHASE` that STEP counts on one channel in a run of commands (R134, R137). -/
def wraps (ch : Channel) : List Instr → State → Nat :=
  countTicks ch fun b _ => decide (2 ^ 32 ≤ b.phase.toNat + b.phaseInc.toNat)

/-- The STEPs of a run of commands at which the channel's `DIVIDED_PHASE` falls (R136). -/
def dividedFalls (ch : Channel) : List Instr → State → Nat :=
  countTicks ch fun b b' => decide (b'.dividedPhase.toNat < b.dividedPhase.toNat)

/-- `DIVIDER = d` throughout a run of commands (R137). -/
def dividerHeld (ch : Channel) (d : U32) : List Instr → State → Prop
  | [], _ => True
  | i :: is, s => ∀ t, exec i s = .next t → (∀ b, t.bank? ch = some b → b.divider = d) ∧ dividerHeld ch d is t

/-- `DIVIDED_PHASE` is R135's value of the bank's own phase, divider and counter, as every STEP and INIT leave it; after SET_DIVIDER
it may not be, until the next STEP (R140). -/
def dividedFresh (b : Bank) : Prop :=
  b.dividedPhase.toNat = b.phase.toNat / b.divider.toNat + 2 ^ 32 / b.divider.toNat * b.divCounter.toNat

/-- A reserved bit of `DATA` is set (R84, R88), on the numbers of the word: `OP` is `w / 2^36` and `DATA` is `w mod 2^32`. -/
def ReservedBitSet (p : Params) (w : Command) : Prop :=
  let op := w.toNat / 2 ^ 36
  let d := w.toNat % 2 ^ 32
  ((op = 0 ∨ op = 1 ∨ op = 8 ∨ op = 9) ∧ d ≠ 0) ∨
  ((op = 2 ∨ op = 4 ∨ op = 7) ∧ 2 ^ 16 ≤ d) ∨
  (op = 3 ∧ 2 ^ 3 ≤ d) ∨
  (op = 5 ∧ 2 ^ p.dividerBits ≤ d) ∨
  (op = 10 ∧ 2 ^ 4 ≤ d)

/-- The words that raise ILLEGAL_COMMAND, as R222 lists them. -/
def IllegalWord (p : Params) (w : Command) : Prop :=
  let op := w.toNat / 2 ^ 36
  let d := w.toNat % 2 ^ 32
  11 ≤ op ∨ p.nChannels ≤ w.toNat / 2 ^ 32 % 16 ∨ ReservedBitSet p w ∨ (op = 3 ∧ 5 ≤ d % 8) ∨ (op = 10 ∧ 10 ≤ d % 16)

/-- The state after a fault of cause code `code`, from a state in which the command has already been taken (R224). -/
def afterFault (s : State) (code : BitVec 4) : State :=
  { s with
    status := { fault := true, cause := code }
    responses := s.responses ++ [responseWord code 0] }

/-- The command writes the register named `r` of its channel, as the Writers column of R43 lists it. -/
def writes : Opcode → RegName → Bool
  | .init, _ => true
  | .step, .phase => true
  | .step, .divCounter => true
  | .step, .dividedPhase => true
  | .setPitch, .phaseInc => true
  | .setPitch, .pitch => true
  | .setDivider, .divCounter => true
  | .setDivider, .divider => true
  | .setInitialPhase, .initialPhase => true
  | .setLevel, .level => true
  | .setDividedPitch, .dividedPitch => true
  | .setShape, .shape => true
  | _, _ => false

end Sys2Proof.Safety
end

