-- ==== Sys2Proof/Certificates/Slice0/Obligations.lean ====
section
/-! DEFINITION. The statements for the provers. Each docstring names the rule it formalises. `s.bank? ch = some b` says that
channel `ch` exists and `b` is its bank; `s.status.fault = false` says that the block is not halted. A state update written
out in full says its own frame: every field it does not name is as before. -/

open Sys2Proof Sys2Proof.Machine Sys2Proof.Safety

/-! ### Encoding -/

/-- Every well-formed command, encoded and decoded, is itself, in every configuration (30_encoding.md sections 1 to 3). -/
def Obligations.EncodeThenDecodeGivesTheCommand : Prop :=
  ∀ (p : Params) (i : Instr), i.WellFormed p → decode p (encode i) = .ok i

/-- No command word is read as a command of another word: what the decoder answers is well formed and encodes to that very
word (30_encoding.md sections 1 to 4). -/
def Obligations.DecodeThenEncodeGivesTheWord : Prop :=
  ∀ (p : Params) (w : Command) (i : Instr), decode p w = .ok i → i.WellFormed p ∧ encode i = w

/-- R94: each assembly line of the table is the command the table's word stands for, by the assembler, the encoder and the
decoder of the reset configuration. -/
def Obligations.EncodingExampleWordsAgree : Prop :=
  ∀ row ∈ ([("NOP 0", 0x0000000000), ("INIT 2", 0x1200000000), ("SET_PITCH 0, -1536", 0x200000FA00),
      ("SET_PITCH 1, 10752", 0x2100002A00), ("SET_SHAPE 3, SINE", 0x3300000004), ("SET_LEVEL 0, 65535", 0x400000FFFF),
      ("SET_DIVIDER 0, 4", 0x5000000004), ("SET_INITIAL_PHASE 1, 0x40000000", 0x6140000000),
      ("SET_DIVIDED_PITCH 0, -1", 0x700000FFFF), ("STEP 3", 0x8300000000), ("SAMPLE 0", 0x9000000000),
      ("READ_REG 0, DIV_COUNTER", 0xA000000002)] : List (String × Command)),
    ∃ i, assembleLine Config.model.toParams row.1 = some [i] ∧ encode i = row.2 ∧
      decode Config.model.toParams row.2 = .ok i

/-- The assembler emits no reserved encoding (30_encoding.md section 5): every command it answers for a line of text, pseudo-commands
included, in a well-formed configuration, is well formed and, but for SET_DIVIDER, whose value 0 it assembles, legal; on operands
already read, the command has the opcode and the channel asked for; and the expansions of the pseudo-commands. Which lines of text
are read is the model's choice (notes/assumptions/14). -/
def Obligations.AssemblerEmitsNoReservedEncoding : Prop :=
  (∀ (c : Config) (line : String) (is : List Instr), assembleLine c.toParams line = some is →
    ∀ i ∈ is, i.WellFormed c.toParams ∧ (i.opcode ≠ .setDivider → i.operandLegal = true)) ∧
  (∀ (c : Config) (o : Opcode) (ch : Nat) (x : AsmOperand) (i : Instr), assemble c.toParams o ch x = some i →
    i.opcode = o ∧ i.channel.toNat = ch ∧ i.WellFormed c.toParams ∧ (o ≠ .setDivider → i.operandLegal = true)) ∧
  ∀ (c : Config) (ch : Channel) (k : Nat),
    expand c.toParams (.tick ch) = [.step ch, .sample ch] ∧
    (expand c.toParams .initAll).length = c.nChannels ∧
    (∀ n, n < c.nChannels → (expand c.toParams .initAll)[n]? = some (.init (BitVec.ofNat 4 n))) ∧
    expand c.toParams (.stepN ch k) = List.replicate k (.step ch)

/-- R87 and R88, and the channel check of R82: a word with a reserved opcode, a missing channel or a reserved bit raises
ILLEGAL_COMMAND and changes nothing else. -/
def Obligations.RefusedWordsRaiseIllegalCommand : Prop :=
  ∀ (s : State) (w : Command) (rest : List Command), s.status.fault = false → s.commands = w :: rest →
    (11 ≤ w.toNat / 2 ^ 36 ∨ s.cfg.nChannels ≤ w.toNat / 2 ^ 32 % 16 ∨ ReservedBitSet s.cfg.toParams w) →
    step s = .next (afterFault { s with commands := rest } 1)

/-! ### The step and the port -/

/-- A step runs the decoded command: with a word presented that decodes to `i`, the step is `exec i` on the state from which
the word has been taken (30_encoding.md section 4). With no word presented the block is idle and holds its state
(60_exceptions.md section 4). -/
def Obligations.StepRunsTheDecodedCommand : Prop :=
  (∀ (s : State) (w : Command) (rest : List Command) (i : Instr), s.status.fault = false → s.commands = w :: rest →
    decode s.cfg.toParams w = .ok i → step s = exec i { s with commands := rest }) ∧
  ∀ s : State, s.commands = [] → step s = .next s

/-- R83: every command gets exactly one response; its `STATUS` is 0, 1 or 2, and `status.CAUSE` when the block is halted; its
`RDATA` is 0 when `STATUS` is not 0 and for every command but SAMPLE and READ_REG; and the fields stand where the format puts
them. -/
def Obligations.EveryCommandGetsOneResponse : Prop :=
  ∀ (s t : State) (w : Command) (rest : List Command), MachineInv s → s.commands = w :: rest → step s = .next t →
    ∃ (st : BitVec 4) (d : U32), t.responses = s.responses ++ [responseWord st d] ∧
      (st = 0 ∨ st = 1 ∨ st = 2) ∧ (st ≠ 0 → d = 0) ∧ (s.status.fault = true → st = s.status.cause) ∧
      (w.toNat / 2 ^ 36 ≠ 9 → w.toNat / 2 ^ 36 ≠ 10 → d = 0) ∧
      (responseWord st d).extractLsb' 32 4 = st ∧ (responseWord st d).extractLsb' 0 32 = d

/-- A run from power-on (70_reset_and_hazards.md section 5): each step answers one command, a response with a nonzero `STATUS`
has been given exactly when the block is halted, and the run ends well exactly when it is not. That a run without a response ends
well is the model's choice (notes/assumptions/16). -/
def Obligations.RunsFromPowerOnTellTheirEnd : Prop :=
  ∀ (c : Config) (ws : List Command) (k : Nat), ∃ t, Host.Core.run Sys2Proof.core k (powerOnWith c ws) = .next t ∧
    t.commands = ws.drop k ∧ t.responses.length = min k ws.length ∧
    ((∃ r ∈ t.responses, responseStatus r ≠ 0) ↔ t.status.fault = true) ∧
    (EndsWell t ↔ t.status.fault = false)

/-! ### Invariants and reset -/

/-- The state after power-on of any configuration meets the invariant, and so does the reset state, which has the spec's default
for every parameter with one (the model's choice of a configuration, notes/assumptions/6). -/
def Obligations.PowerOnMeetsTheInvariant : Prop :=
  MachineInv State.reset ∧ State.reset = State.powerOn Config.model ∧
  Config.model.defaultPitch = 0 ∧ Config.model.defaultShape = .triangle ∧ Config.model.nChannels = 4 ∧
  ∀ (c : Config) (ws : List Command), MachineInv (powerOnWith c ws) ∧ ResponsesInv (powerOnWith c ws)

/-- Every step keeps the invariant, from every state that meets it (10_state.md sections 2 and the global status). -/
def Obligations.EveryStepKeepsTheInvariant : Prop :=
  ∀ s t : State, MachineInv s → step s = .next t → MachineInv t

/-- Every step keeps the agreement of the responses with the status (70_reset_and_hazards.md section 5), from every state that
has it. -/
def Obligations.EveryStepKeepsResponsesTrue : Prop :=
  ∀ s t : State, StatusInv s.status → ResponsesInv s → step s = .next t → ResponsesInv t

/-- R44: the invariants every reachable state keeps, per channel, from power-on in any configuration under any sequence of
command words. `SHAPE <= 4` holds by the type of the register (notes/assumptions/8). -/
def Obligations.ReachableBanksAreLegal : Prop :=
  ∀ (c : Config) (ws : List Command) (k : Nat) (t : State),
    Host.Core.run Sys2Proof.core k (powerOnWith c ws) = .next t →
    ∀ b ∈ t.banks, 1 ≤ b.divider.toNat ∧ b.divCounter.toNat < b.divider.toNat ∧ (shapeCode b.shape).toNat ≤ 4

/-- No step stops in a state that meets the invariant: the block has no fault of its own that ends a run, and no computation
fails (60_exceptions.md section 1, 41_phase_divider.md section 1). -/
def Obligations.InvariantStatesNeverStop : Prop :=
  (∀ s : State, MachineInv s → ∃ t, step s = .next t) ∧
  ∀ (s : State) (i : Instr), MachineInv s → ∃ t, exec i s = .next t

/-- R251: the reset value of every piece of state, in every configuration. -/
def Obligations.ResetValueOfEveryPiece : Prop :=
  ∀ c : Config,
    (State.powerOn c).banks.length = c.nChannels ∧
    (∀ b ∈ (State.powerOn c).banks,
      b.phase = 0 ∧ b.phaseInc = inc c.toParams c.defaultPitch ∧ b.divCounter = 0 ∧ b.divider = 1 ∧ b.dividedPhase = 0 ∧
      b.initialPhase = 0 ∧ b.level = 65535 ∧ b.pitch = c.defaultPitch ∧ b.dividedPitch = c.defaultPitch ∧
      b.shape = c.defaultShape) ∧
    (State.powerOn c).status = { fault := false, cause := 0 } ∧ (State.powerOn c).cfg.rom = c.rom

/-- R250: power-on sets every bank to what INIT gives it and clears the status, leaves the ROM, and the block then takes its
first command. -/
def Obligations.PowerOnIsInitOnEveryChannel : Prop :=
  ∀ s : State,
    (∀ ch : Channel, ch.toNat < s.cfg.nChannels → ∃ b, s.powerCycle.bank? ch = some b ∧
      ∀ u t : State, u.cfg = s.cfg → u.status.fault = false → (∃ b', u.bank? ch = some b') → exec (.init ch) u = .next t →
        t.bank? ch = some b) ∧
    s.powerCycle.status = { fault := false, cause := 0 } ∧ s.powerCycle.cfg = s.cfg ∧
    ∀ (w : Command) (i : Instr), decode s.cfg.toParams w = .ok i →
      step (s.powerCycle.present w) = exec i s.powerCycle

/-- R253: INIT resets one channel and reset every channel; INIT cannot clear a fault and reset clears it. -/
def Obligations.InitAndResetDiffer : Prop :=
  (∀ (s t : State) (ch c : Channel) (b : Bank), s.status.fault = false → s.bank? ch = some b → exec (.init ch) s = .next t →
    t.bank? ch = some (initBank s.cfg.toParams) ∧ (c ≠ ch → t.bank? c = s.bank? c)) ∧
  (∀ (s : State) (ch : Channel), s.status.fault = true → ∃ t, exec (.init ch) s = .next t ∧ t.status = s.status ∧
    t.banks = s.banks) ∧
  (∀ s : State, s.powerCycle.status.fault = false ∧ ∀ b ∈ s.powerCycle.banks, b = initBank s.cfg.toParams)

/-! ### Faults -/

/-- R222: ILLEGAL_COMMAND is raised by exactly the words the rule lists. -/
def Obligations.IllegalCommandExactlyWhenListed : Prop :=
  ∀ (s t : State) (w : Command) (rest : List Command), MachineInv s → s.status.fault = false → s.commands = w :: rest →
    step s = .next t →
    ((t.status.fault = true ∧ t.status.cause = 1) ↔ IllegalWord s.cfg.toParams w)

/-- R139: SET_DIVIDER with value 0 raises DIVIDER_ZERO and changes no register; and no other word raises it (60_exceptions.md
section 1). -/
def Obligations.DividerZeroExactlyWhenSetDividerZero : Prop :=
  (∀ (s : State) (ch : Channel) (b : Bank), s.status.fault = false → s.bank? ch = some b →
    exec (.setDivider ch 0) s = .next (afterFault s 2)) ∧
  ∀ (s t : State) (w : Command) (rest : List Command), MachineInv s → s.status.fault = false → s.commands = w :: rest →
    step s = .next t →
    ((t.status.fault = true ∧ t.status.cause = 2) ↔
      ¬ IllegalWord s.cfg.toParams w ∧ w.toNat / 2 ^ 36 = 5 ∧ w.toNat % 2 ^ 32 = 0)

/-- R227: one fault at most per command, the first in the decode order; SET_DIVIDER of value 0 on a missing channel reports
ILLEGAL_COMMAND; and a halted block keeps the first cause. -/
def Obligations.FirstFaultIsTheOneReported : Prop :=
  (∀ (s : State) (w : Command) (rest : List Command), s.status.fault = false → s.commands = w :: rest →
    IllegalWord s.cfg.toParams w → ∀ t, step s = .next t → t.status.cause = 1 ∧
      t.responses = s.responses ++ [responseWord 1 0]) ∧
  (∀ (s : State) (ch : Channel), s.status.fault = false → s.cfg.nChannels ≤ ch.toNat →
    exec (.setDivider ch 0) s = .next (afterFault s 1)) ∧
  ∀ (s t : State), s.status.fault = true → step s = .next t → t.status = s.status

/-- R224: a fault keeps every register, sets the status to the cause and answers with it; a halted block takes each later word,
legal or not, with no effect but the answer. -/
def Obligations.FaultEntryHaltsTheBlock : Prop :=
  (∀ s t : State, s.status.fault = false → step s = .next t → t.status.fault = true →
    t.banks = s.banks ∧ (t.status.cause = 1 ∨ t.status.cause = 2) ∧
    t = afterFault { s with commands := s.commands.tail } t.status.cause) ∧
  ∀ (s : State) (w : Command) (rest : List Command), s.status.fault = true → s.commands = w :: rest →
    step s = .next { s with commands := rest, responses := s.responses ++ [responseWord s.status.cause 0] }

/-- R225: no command and no run of commands clears a fault; power-on reset does. -/
def Obligations.OnlyPowerOnClearsAFault : Prop :=
  (∀ (s : State) (i : Instr), s.status.fault = true → ∃ t, exec i s = .next t ∧ t.status = s.status) ∧
  (∀ (s : State) (k : Nat), s.status.fault = true →
    ∃ t, Host.Core.run Sys2Proof.core k s = .next t ∧ t.status = s.status) ∧
  ∀ s : State, s.powerCycle.status.fault = false

/-- R226: the faulting command has no partial effect and no later command takes any: after any number of further steps the
registers are those from before the faulting command, which the earlier commands left. -/
def Obligations.FaultsArePrecise : Prop :=
  ∀ s t : State, s.status.fault = false → step s = .next t → t.status.fault = true →
    ∀ k : Nat, ∃ u, Host.Core.run Sys2Proof.core k t = .next u ∧ u.banks = s.banks ∧ u.status = t.status

/-- A SET_SHAPE code of 5 to 7 and a READ_REG number of 10 to 15 raise ILLEGAL_COMMAND, and so does every command on a missing
channel; nothing else changes (43_control_commands.md, 30_encoding.md section 1). -/
def Obligations.ReservedOperandsRaiseIllegalCommand : Prop :=
  (∀ (s : State) (ch : Channel) (b : Bank) (code : BitVec 3), s.status.fault = false → s.bank? ch = some b →
    5 ≤ code.toNat → exec (.setShape ch code) s = .next (afterFault s 1)) ∧
  (∀ (s : State) (ch : Channel) (b : Bank) (r : BitVec 4), s.status.fault = false → s.bank? ch = some b →
    10 ≤ r.toNat → exec (.readReg ch r) s = .next (afterFault s 1)) ∧
  ∀ (s : State) (i : Instr), s.status.fault = false → s.cfg.nChannels ≤ i.channel.toNat →
    exec i s = .next (afterFault s 1)

/-! ### Frames and independence of the channels -/

/-- What a command leaves unchanged: the configuration, the words not yet presented, every word of the ROM at every address and
width, the number of banks, every bank but its own channel's; and it adds one response (10_state.md R32 and R47, 20_memory.md
R61). -/
def Obligations.EveryCommandFrame : Prop :=
  ∀ (i : Instr) (s t : State), exec i s = .next t →
    t.cfg = s.cfg ∧ t.commands = s.commands ∧ (∀ addr n, memRead t.cfg.rom addr n = memRead s.cfg.rom addr n) ∧
    t.banks.length = s.banks.length ∧ (∀ c : Channel, c ≠ i.channel → t.bank? c = s.bank? c) ∧
    ∃ r, t.responses = s.responses ++ [r]

/-- The Writers column of R43: a register changes only at a command the column lists, of its own channel. R119 (`PHASE_INC`
changes only at SET_PITCH and INIT) and R51 (`LEVEL` only at INIT and SET_LEVEL) are two of its rows. -/
def Obligations.OnlyListedCommandsWriteARegister : Prop :=
  ∀ (i : Instr) (s t : State) (c : Channel) (b : Bank), exec i s = .next t → s.bank? c = some b →
    ∃ b', t.bank? c = some b' ∧
      ∀ r : RegName, writes i.opcode r = false ∨ c ≠ i.channel → readRegister b' r = readRegister b r

/-- R72: two commands of different channels commute while no fault occurs: either order leaves the same registers, and each
command gives the same response in both. -/
def Obligations.CommandsOfDifferentChannelsCommute : Prop :=
  ∀ (i j : Instr) (s a ab : State), i.channel ≠ j.channel → s.status.fault = false →
    exec i s = .next a → a.status.fault = false → exec j a = .next ab → ab.status.fault = false →
    ∃ (b ba : State) (ri rj : Response), exec j s = .next b ∧ exec i b = .next ba ∧
      ba.banks = ab.banks ∧ ba.status = ab.status ∧ ba.cfg = ab.cfg ∧ ba.commands = ab.commands ∧
      ab.responses = s.responses ++ [ri, rj] ∧ ba.responses = s.responses ++ [rj, ri]

/-! ### Control and parameter commands -/

/-- NOP answers OK with data 0 and changes no register (43_control_commands.md). -/
def Obligations.NopAnswersAndChangesNothing : Prop :=
  ∀ (s : State) (ch : Channel) (b : Bank), s.status.fault = false → s.bank? ch = some b →
    exec (.nop ch) s = .next { s with responses := s.responses ++ [responseWord 0 0] }

/-- R191: the value INIT gives every register of its channel, and nothing else changes. -/
def Obligations.InitWritesEveryRegister : Prop :=
  ∀ (s : State) (ch : Channel) (b : Bank), s.status.fault = false → s.bank? ch = some b →
    exec (.init ch) s = .next { s with
      banks := s.banks.set ch.toNat
        { phase := 0, phaseInc := inc s.cfg.toParams s.cfg.defaultPitch, divCounter := 0, divider := 1, dividedPhase := 0,
          initialPhase := 0, level := 65535, pitch := s.cfg.defaultPitch, dividedPitch := s.cfg.defaultPitch,
          shape := s.cfg.defaultShape }
      responses := s.responses ++ [responseWord 0 0] }

/-- R193: each of the four setters writes exactly one register of its channel, with the operand as given, and nothing else; a
SET_SHAPE code is one of R90's five. -/
def Obligations.SettersWriteOneRegister : Prop :=
  ∀ (s : State) (ch : Channel) (b : Bank), s.status.fault = false → s.bank? ch = some b →
    (∀ code : BitVec 3, code.toNat < 5 → ∃ sh : Shape, shapeCode sh = code ∧
      exec (.setShape ch code) s = .next { s with
        banks := s.banks.set ch.toNat { b with shape := sh }, responses := s.responses ++ [responseWord 0 0] }) ∧
    (∀ v : U16, exec (.setLevel ch v) s = .next { s with
        banks := s.banks.set ch.toNat { b with level := v }, responses := s.responses ++ [responseWord 0 0] }) ∧
    (∀ v : U32, exec (.setInitialPhase ch v) s = .next { s with
        banks := s.banks.set ch.toNat { b with initialPhase := v }, responses := s.responses ++ [responseWord 0 0] }) ∧
    (∀ v : S16, exec (.setDividedPitch ch v) s = .next { s with
        banks := s.banks.set ch.toNat { b with dividedPitch := v }, responses := s.responses ++ [responseWord 0 0] })

/-- What READ_REG answers for each register number of R43: unsigned registers zero-extended, signed ones sign-extended; no
register changes (43_control_commands.md). -/
def Obligations.ReadRegAnswersTheRegister : Prop :=
  ∀ (s : State) (ch : Channel) (b : Bank), s.status.fault = false → s.bank? ch = some b →
    ∀ row ∈ ([(0, b.phase), (1, b.phaseInc), (2, b.divCounter), (3, b.divider), (4, b.dividedPhase), (5, b.initialPhase),
        (6, b.level.setWidth 32), (7, b.pitch.signExtend 32), (8, b.dividedPitch.signExtend 32),
        (9, (shapeCode b.shape).setWidth 32)] : List (BitVec 4 × U32)),
      exec (.readReg ch row.1) s = .next { s with responses := s.responses ++ [responseWord 0 row.2] }

/-! ### Pitch-to-increment converter -/

/-- R118: SET_PITCH writes `PITCH` and `PHASE_INC = INC(p)` and no other register, so the accumulator goes on from where it
is. -/
def Obligations.SetPitchLoadsPitchAndIncrement : Prop :=
  ∀ (s : State) (ch : Channel) (b : Bank) (p : S16), s.status.fault = false → s.bank? ch = some b →
    exec (.setPitch ch p) s = .next { s with
      banks := s.banks.set ch.toNat { b with pitch := p, phaseInc := inc s.cfg.toParams p }
      responses := s.responses ++ [responseWord 0 0] }

/-- R111 and R112: the octave fold is floor division: the folded pitch lies in `[0, K_OCTAVE)`, a pitch below 0 has a negative
shift count, and the count lies in the range R112 gives, `[-22, 21]` for `K_OCTAVE = 1536`. -/
def Obligations.OctaveFoldIsFloorDivision : Prop :=
  ∀ (c : Config) (pitch : S16),
    pitch.toInt = octaveShift c.toParams pitch * c.kOctave + foldedPitch c.toParams pitch ∧
    0 ≤ foldedPitch c.toParams pitch ∧ foldedPitch c.toParams pitch < c.kOctave ∧
    (pitch.toInt < 0 ↔ octaveShift c.toParams pitch < 0) ∧
    (-32768) / (c.kOctave : Int) ≤ octaveShift c.toParams pitch ∧
    octaveShift c.toParams pitch ≤ 32767 / (c.kOctave : Int) ∧
    (c.kOctave = 1536 → -22 ≤ octaveShift c.toParams pitch ∧ octaveShift c.toParams pitch ≤ 21)

/-- R114: both neighbours of the index are in `LUT_INC`, the interpolated base is the floor the rule gives, lies between them,
is a u32, and is the first of them when the fraction is 0. -/
def Obligations.BaseIncrementInterpolates : Prop :=
  ∀ (c : Config) (pitch : S16),
    let i := incIndex c.toParams pitch
    let fr := incFraction c.toParams pitch
    ∃ a b : U32, c.rom.lutInc[i]? = some a ∧ c.rom.lutInc[i + 1]? = some b ∧
      incBase c.toParams pitch = (a.toNat : Int) + (((b.toNat : Int) - a.toNat) * fr) / 2 ^ c.incFracBits ∧
      min (a.toNat : Int) b.toNat ≤ incBase c.toParams pitch ∧ incBase c.toParams pitch ≤ max (a.toNat : Int) b.toNat ∧
      0 ≤ incBase c.toParams pitch ∧ incBase c.toParams pitch < 2 ^ 32 ∧
      (fr = 0 → incBase c.toParams pitch = a.toNat)

/-- R113 and R115: `INC` whole, on the numbers: with `s`, `f` the floor quotient and remainder of the pitch by `K_OCTAVE`, `i`
the bits of `f` above the fraction and `fr` those below, the interpolated base is shifted left by `s` and kept to 32 bits, or
right by `-s`. -/
def Obligations.IncrementWholeFunction : Prop :=
  ∀ (c : Config) (pitch : S16),
    let s := pitch.toInt / (c.kOctave : Int)
    let f := (pitch.toInt % (c.kOctave : Int)).toNat
    ∃ a b : U32, c.rom.lutInc[f / 2 ^ c.incFracBits]? = some a ∧ c.rom.lutInc[f / 2 ^ c.incFracBits + 1]? = some b ∧
      let base := (a.toNat : Int) + (((b.toNat : Int) - a.toNat) * (f % 2 ^ c.incFracBits : Nat)) / 2 ^ c.incFracBits
      ((inc c.toParams pitch).toNat : Int) = if 0 ≤ s then base * 2 ^ s.toNat % 2 ^ 32 else base / 2 ^ (-s).toNat

/-- R116: the shift corner cases, for every base increment and every shift count: a left shift keeps the low 32 bits and a count
of 32 or more gives 0; a right shift is the logical shift of the 32 bits, and 32 or more gives 0. -/
def Obligations.OctaveShiftCorners : Prop :=
  ∀ (base : U32) (n : Nat),
    shiftOctaves base.toNat n = base <<< n ∧ (32 ≤ n → shiftOctaves base.toNat n = 0) ∧
    (1 ≤ n → shiftOctaves base.toNat (-(n : Int)) = base >>> n) ∧ (32 ≤ n → shiftOctaves base.toNat (-(n : Int)) = 0)

/-- R120: the octave law, exact for a non-negative octave count and up to the truncated bit 0 below. -/
def Obligations.OctaveLaw : Prop :=
  ∀ (c : Config) (p q : S16), q.toInt = p.toInt + c.kOctave →
    let s := octaveShift c.toParams p
    let base := incBase c.toParams p
    (0 ≤ s → inc c.toParams q = inc c.toParams p <<< 1) ∧
    (s = -1 → ((inc c.toParams q).toNat : Int) = base ∧ ((inc c.toParams p <<< 1).toNat : Int) = base - base % 2) ∧
    (s ≤ -2 → ((inc c.toParams q).toNat : Int) = base / 2 ^ (-s - 1).toNat ∧
      (inc c.toParams p <<< 1).toNat = (inc c.toParams q).toNat / 2 * 2)

/-! ### Phase accumulator and clock divider -/

/-- R131, R133 and R135: one STEP adds with a 32-bit wrap, advances the counter modulo the divider exactly when the add carries
out, and recomputes the divided phase by floor divisions from the new phase and counter; every other register and channel is
unchanged. -/
def Obligations.StepAdvancesOneTick : Prop :=
  ∀ (s : State) (ch : Channel) (b : Bank), s.status.fault = false → s.bank? ch = some b → BankInv s.cfg.toParams b →
    let d := b.divider.toNat
    let p := (b.phase.toNat + b.phaseInc.toNat) % 2 ^ 32
    let k := if 2 ^ 32 ≤ b.phase.toNat + b.phaseInc.toNat then (b.divCounter.toNat + 1) % d else b.divCounter.toNat
    exec (.step ch) s = .next { s with
      banks := s.banks.set ch.toNat
        { b with
          phase := BitVec.ofNat 32 p, divCounter := BitVec.ofNat 32 k,
          dividedPhase := BitVec.ofNat 32 ((p / d + 2 ^ 32 / d * k) % 2 ^ 32) }
      responses := s.responses ++ [responseWord 0 0] }

/-- R134: the comparison of the new phase with the increment is the carry out of the 32-bit add; one STEP counts at most one
wrap, and an increment of 0 never wraps. -/
def Obligations.WrapIsTheCarryOut : Prop :=
  ∀ b : Bank,
    (wrapDetected (newPhase b) b.phaseInc = true ↔ 2 ^ 32 ≤ b.phase.toNat + b.phaseInc.toNat) ∧
    b.phase.toNat + b.phaseInc.toNat < 2 * 2 ^ 32 ∧
    (b.phaseInc = 0 → wrapDetected (newPhase b) b.phaseInc = false ∧ newPhase b = b.phase)

/-- R136, read while `DIVIDER` holds (notes/assumptions/17): the sum of R135 fits in 32 bits; with divider 1 the counter is 0 and the
divided phase after a STEP is the phase; from any bank whose divided phase is R135's value of its own phase and counter, one STEP
lets it fall exactly where the add carries out and the counter returns from `d - 1` to 0; and every command but a SET_DIVIDER of the
channel leaves the divided phase so. -/
def Obligations.DividedPhaseConsequences : Prop :=
  (∀ d k p : Nat, 1 ≤ d → k < d → p < 2 ^ 32 → p / d + 2 ^ 32 / d * k ≤ 2 ^ 32 - 1) ∧
  (∀ (s t : State) (ch : Channel) (b : Bank), s.status.fault = false → s.bank? ch = some b → BankInv s.cfg.toParams b →
    exec (.step ch) s = .next t →
    ∃ b', t.bank? ch = some b' ∧ b'.divider = b.divider ∧ dividedFresh b' ∧
      (b.divider = 1 → b.divCounter = 0 ∧ b'.divCounter = 0 ∧ b'.dividedPhase = b'.phase) ∧
      (dividedFresh b →
        (b'.dividedPhase.toNat < b.dividedPhase.toNat ↔
          2 ^ 32 ≤ b.phase.toNat + b.phaseInc.toNat ∧ b.divCounter.toNat = b.divider.toNat - 1) ∧
        (b'.dividedPhase.toNat < b.dividedPhase.toNat → b'.divCounter = 0))) ∧
  ∀ (i : Instr) (s t : State) (ch : Channel) (b : Bank), exec i s = .next t → s.bank? ch = some b → BankInv s.cfg.toParams b →
    (i.opcode ≠ .setDivider ∨ i.channel ≠ ch) → dividedFresh b → ∃ b', t.bank? ch = some b' ∧ dividedFresh b'

/-- `n` ticks of one channel, for every `n`: the phase is the accumulated increment modulo `2^32`, and the counter has advanced
by the number of wraps, modulo the divider; the divided phase is R135's of the last tick (41_phase_divider.md section 1). -/
def Obligations.TicksAccumulateAndCountWraps : Prop :=
  ∀ (s : State) (ch : Channel) (b : Bank) (n : Nat), MachineInv s → s.status.fault = false → s.bank? ch = some b →
    let total := b.phase.toNat + n * b.phaseInc.toNat
    ∃ t b', ticks n ch s = .next t ∧ t.bank? ch = some b' ∧ b'.divider = b.divider ∧ b'.phaseInc = b.phaseInc ∧
      b'.phase.toNat = total % 2 ^ 32 ∧
      b'.divCounter.toNat = (b.divCounter.toNat + total / 2 ^ 32) % b.divider.toNat ∧
      (1 ≤ n → b'.dividedPhase.toNat =
        b'.phase.toNat / b.divider.toNat + 2 ^ 32 / b.divider.toNat * b'.divCounter.toNat)

/-- R137, for every run of commands of any kind and channel throughout which `DIVIDER = d`: the counter has advanced by the wraps
STEP counted, modulo `d`; so after exactly `d` wraps it is back, after fewer but some it is not, and from 0 it runs
`1, 2, ..., d - 1, 0` over the first `d` wraps; and where the divided phase was R135's value at the start, it has fallen
`(counter + wraps) / d` times, once over `d` wraps (notes/assumptions/17). With back-to-back STEPs at one increment, `d` raw cycles
bring a bank that a STEP has left back to itself. -/
def Obligations.DividerPeriodicity : Prop :=
  (∀ (s : State) (ch : Channel) (b : Bank) (is : List Instr), MachineInv s → s.status.fault = false → s.bank? ch = some b →
    dividerHeld ch b.divider is s →
    ∃ t b', execAll is s = .next t ∧ t.bank? ch = some b' ∧
      b'.divCounter.toNat = (b.divCounter.toNat + wraps ch is s) % b.divider.toNat ∧
      (wraps ch is s = b.divider.toNat → b'.divCounter = b.divCounter) ∧
      (0 < wraps ch is s → wraps ch is s < b.divider.toNat → b'.divCounter ≠ b.divCounter) ∧
      (b.divCounter = 0 → (wraps ch is s < b.divider.toNat → b'.divCounter.toNat = wraps ch is s) ∧
        (wraps ch is s = b.divider.toNat → b'.divCounter = 0)) ∧
      (dividedFresh b → dividedFalls ch is s = (b.divCounter.toNat + wraps ch is s) / b.divider.toNat ∧
        (wraps ch is s = b.divider.toNat → dividedFalls ch is s = 1))) ∧
  ∀ (s : State) (ch : Channel) (b : Bank) (n : Nat), MachineInv s → s.status.fault = false → s.bank? ch = some b →
    ∃ t b', ticks n ch s = .next t ∧ t.bank? ch = some b' ∧
      wraps ch (List.replicate n (.step ch)) s = (b.phase.toNat + n * b.phaseInc.toNat) / 2 ^ 32 ∧
      (n * b.phaseInc.toNat = b.divider.toNat * 2 ^ 32 → dividedFresh b → b' = b)

/-- What SET_DIVIDER does with a legal value: it writes `DIVIDER` and reduces `DIV_COUNTER` modulo it, and leaves
`DIVIDED_PHASE` and all else; the held divider again changes no register, and the value 1 forces the counter to 0
(41_phase_divider.md). -/
def Obligations.SetDividerReducesTheCounter : Prop :=
  ∀ (s : State) (ch : Channel) (b : Bank) (v : U32), s.status.fault = false → s.bank? ch = some b →
    BankInv s.cfg.toParams b → 1 ≤ v.toNat → v.toNat < 2 ^ s.cfg.dividerBits →
    ∃ k : U32, k.toNat = b.divCounter.toNat % v.toNat ∧
      exec (.setDivider ch v) s = .next { s with
        banks := s.banks.set ch.toNat { b with divider := v, divCounter := k }
        responses := s.responses ++ [responseWord 0 0] } ∧
      (v = b.divider → k = b.divCounter) ∧ (v = 1 → k = 0)

/-- R140: `DIVIDED_PHASE` is recomputed only by STEP (and set to 0 by INIT): after SET_DIVIDER and after SET_PITCH it keeps its
old value, which a SAMPLE then reads. -/
def Obligations.DividedPhaseStaysUntilTheNextStep : Prop :=
  ∀ (i : Instr) (s t : State) (c : Channel) (b : Bank), exec i s = .next t → s.bank? c = some b →
    i.opcode ≠ .step → i.opcode ≠ .init →
    ∃ b', t.bank? c = some b' ∧ b'.dividedPhase = b.dividedPhase ∧
      (i.opcode = .setDivider ∨ i.opcode = .setPitch →
        effectivePhase b' = effectivePhase b ∧ sampleValue t.cfg.toParams b' = sampleValue s.cfg.toParams b)

/-! ### Wavetable synthesizer -/

/-- SAMPLE answers the 16-bit two's-complement word of `SAMPLE_VALUE`, sign-extended, and changes no register
(42_synthesizer.md section 3). -/
def Obligations.SampleAnswersTheSampleValue : Prop :=
  ∀ (s : State) (ch : Channel) (b : Bank), s.status.fault = false → s.bank? ch = some b →
    ∃ v : S16, v.toInt = sampleValue s.cfg.toParams b ∧
      exec (.sample ch) s = .next { s with responses := s.responses ++ [responseWord 0 (v.signExtend 32)] }

/-- R150, R151 and R177: `SAMPLE_VALUE` reads `SHAPE`, the sum of `INITIAL_PHASE` and `DIVIDED_PHASE`, `DIVIDED_PITCH`, `LEVEL`
and the configuration, and nothing else: not `PITCH`. -/
def Obligations.SampleValueReadsOnlyItsInputs : Prop :=
  ∀ (c : Config) (b b' : Bank), b.shape = b'.shape →
    (b.initialPhase.toNat + b.dividedPhase.toNat) % 2 ^ 32 = (b'.initialPhase.toNat + b'.dividedPhase.toNat) % 2 ^ 32 →
    b.dividedPitch = b'.dividedPitch → b.level = b'.level →
    sampleValue c.toParams b = sampleValue c.toParams b'

/-- R152: `FORCE_SAW` makes every shape compute Saw and leaves the `SHAPE` register as SET_SHAPE writes it and READ_REG reads
it; without it the shape is the register's. -/
def Obligations.ForceSawOverridesTheShape : Prop :=
  ∀ (s : State) (ch : Channel) (b : Bank), s.status.fault = false → s.bank? ch = some b →
    (s.cfg.forceSaw = true →
      sampleValue s.cfg.toParams b = shapeValue s.cfg.toParams .saw (effectivePhase b) b.dividedPitch b.level) ∧
    (s.cfg.forceSaw = false → sampleValue s.cfg.toParams b =
      shapeValue s.cfg.toParams b.shape (effectivePhase b) b.dividedPitch b.level) ∧
    ∀ code : BitVec 3, code.toNat < 5 → ∃ t, exec (.setShape ch code) s = .next t ∧
      exec (.readReg ch 9) t = .next { t with responses := t.responses ++ [responseWord 0 (code.setWidth 32)] }

/-- R154: the bits of the phase a lookup of a 1024-entry table reads: the index is `ep[31:22]`, the fraction `ep[21:6]`, and
`ep[5:0]` is not used; for `BAND_BITS = 10` the band tables read the same bits. -/
def Obligations.SineLookupReadsTheTopBits : Prop :=
  ∀ (c : Config) (t : Table) (ep ep' : U32),
    lookupIndex 10 ep = (ep.extractLsb' 22 10).toNat ∧ lookupFraction 10 ep = (ep.extractLsb' 6 16).toNat ∧
    (ep.extractLsb' 6 26 = ep'.extractLsb' 6 26 → lookup c.rom .sine 10 ep = lookup c.rom .sine 10 ep' ∧
      (c.bandBits = 10 → lookup c.rom t c.bandBits ep = lookup c.rom t c.bandBits ep'))

/-- Every lookup the synthesizer makes reads two entries of its table, the second after the last being the first, and answers a
value between them, hence an s16, and the first of them when the fraction is 0 (42_synthesizer.md section 1). -/
def Obligations.LookupLiesBetweenItsEntries : Prop :=
  ∀ (c : Config) (t : Table) (B : Nat) (ep : U32), t ≠ .lutInc → (if t = .sine then B = 10 else B = c.bandBits) →
    let i := ep.toNat / 2 ^ (32 - B)
    let fr := ep.toNat / 2 ^ (16 - B) % 65536
    ∃ a b : Int, tableEntry c.rom t i = some a ∧ tableEntry c.rom t (if i + 1 = 2 ^ B then 0 else i + 1) = some b ∧
      lookup c.rom t B ep = a + ((b - a) * fr) / 65536 ∧
      min a b ≤ lookup c.rom t B ep ∧ lookup c.rom t B ep ≤ max a b ∧
      -32768 ≤ lookup c.rom t B ep ∧ lookup c.rom t B ep ≤ 32767 ∧
      (fr = 0 → lookup c.rom t B ep = a)

/-- Every index the block computes is inside its table (20_memory.md section 1), where `T[i]` is the word `MemRead` gives at
`base(T) + i`. That the two agree only for indexes below `2^16`, and that `MemRead` gives nothing from the first reserved table id
on, at addresses of more than 20 bits too, is the model's reading (notes/assumptions/5). -/
def Obligations.RomReadsStayInsideTheirTables : Prop :=
  ∀ c : Config,
    (∀ (t : Table) (i : Nat) (v : Int), tableEntry c.rom t i = some v →
      (tableWidth t = 2 → -32768 ≤ v ∧ v ≤ 32767) ∧ (tableWidth t = 4 → 0 ≤ v ∧ v < 2 ^ 32)) ∧
    (∀ (t : Table) (i : Nat), i < tableEntries c.rom t → i < 2 ^ 16 →
      memRead c.rom (tableBase t + i) (tableWidth t) = some (romWord c.rom t i)) ∧
    (∀ pitch : S16, incIndex c.toParams pitch + 1 < tableEntries c.rom .lutInc) ∧
    (∀ (t : Table) (B : Nat) (ep : U32), t ≠ .lutInc → (if t = .sine then B = 10 else B = c.bandBits) →
      lookupIndex B ep < tableEntries c.rom t ∧ (lookupIndex B ep + 1) % 2 ^ B < tableEntries c.rom t) ∧
    ∀ addr n, 11 * 2 ^ 16 ≤ addr → memRead c.rom addr n = none

/-- R157: the range of `Scale`. -/
def Obligations.ScaleRange : Prop :=
  ∀ (v : Int) (level : U16), -32768 ≤ v → v ≤ 32767 →
    (level = 0 → scale v level = 0) ∧
    -32768 ≤ scale v level ∧ scale v level ≤ 32766 ∧
    (scale v level = -32768 ↔ v = -32768 ∧ level = 65535) ∧
    (level = 65535 → scale v level = v + (-v) / 65536 ∧ (1 ≤ v → scale v level = v - 1) ∧ (v ≤ 0 → scale v level = v)) ∧
    (v < 0 → scale v level ≤ 0) ∧ (0 < v → 0 ≤ scale v level)

/-- R161: the crossfade weight lies in `[0, 65535]` and is 65535 exactly at the top of the band. R163: `Mix` lies between its two
values; at weight 65535 it is the second or one short of it; at weight 0 it is the first. -/
def Obligations.CrossfadeWeightAndMix : Prop :=
  (∀ dp lo hi : Int, lo < dp → dp ≤ hi →
    weight dp lo hi = (dp - lo) * 65535 / (hi - lo) ∧ 0 ≤ weight dp lo hi ∧ weight dp lo hi ≤ 65535 ∧
    (weight dp lo hi = 65535 ↔ dp = hi)) ∧
  ∀ a b w : Int, -32768 ≤ a → a ≤ 32767 → -32768 ≤ b → b ≤ 32767 → 0 ≤ w → w ≤ 65535 →
    min a b ≤ mix a b w ∧ mix a b w ≤ max a b ∧ -32768 ≤ mix a b w ∧ mix a b w ≤ 32767 ∧ mix a b 0 = a ∧
    mix a b 65535 = b + (a - b) / 65536 ∧ (a < b → mix a b 65535 = b - 1) ∧ (b ≤ a → mix a b 65535 = b)

/-- R164 and R178: the four regions of the divided pitch, for every configuration; at or below `P1` the reference shape and
above `P100` the 100 Hz table alone. -/
def Obligations.BandSelectionRegions : Prop :=
  ∀ (c : Config) (ref : Int) (t10 t100 : Table) (ep : U32) (dp : S16),
    let l10 := lookup c.rom t10 c.bandBits ep
    let l100 := lookup c.rom t100 c.bandBits ep
    (c.p100.toInt < dp.toInt → banded c.toParams ref t10 t100 ep dp = l100) ∧
    (c.p10.toInt < dp.toInt → dp.toInt ≤ c.p100.toInt →
      banded c.toParams ref t10 t100 ep dp = mix l10 l100 (weight dp.toInt c.p10.toInt c.p100.toInt)) ∧
    (c.p1.toInt < dp.toInt → dp.toInt ≤ c.p10.toInt →
      banded c.toParams ref t10 t100 ep dp = mix ref l10 (weight dp.toInt c.p1.toInt c.p10.toInt)) ∧
    (dp.toInt ≤ c.p1.toInt → banded c.toParams ref t10 t100 ep dp = ref)

/-- R158: the default triangle: the formula, its minimum at phase 0 and maximum at `2^31`, rising over the first half and
falling over the second. R159: the trapezoid reference is the triangle doubled and clamped, whatever the triangle is. -/
def Obligations.TriangleAndTrapezoidReferenceShapes : Prop :=
  (∀ (p : Params) (ep : U32), trapRef p ep =
    if 2 * triRef p ep < -32768 then -32768 else if 32767 < 2 * triRef p ep then 32767 else 2 * triRef p ep) ∧
  ∀ (p : Params), p.triRef = .default158 →
    (∀ ep : U32, triRef p ep =
      if ep.toNat / 2 ^ 15 < 65536 then ((ep.toNat / 2 ^ 15 : Nat) : Int) - 32768 else 98303 - (ep.toNat / 2 ^ 15 : Nat)) ∧
    (∀ ep : U32, -32768 ≤ triRef p ep ∧ triRef p ep ≤ 32767) ∧ triRef p 0 = -32768 ∧ triRef p 0x80000000 = 32767 ∧
    ∀ ep ep' : U32, ep.toNat ≤ ep'.toNat →
      (ep'.toNat < 2 ^ 31 → triRef p ep ≤ triRef p ep') ∧ (2 ^ 31 ≤ ep.toNat → triRef p ep' ≤ triRef p ep)

/-- R160: the ramp reference is `RAMP_REF_OFFSET` plus the top 16 bits of the phase, wrapped or clamped to 16 bits; with the source's
offset of -32678 it is, below phase `0xFFA60000`, the source's formula, and from there on `r - 65536` under WRAP and 32767 under
SATURATE. -/
def Obligations.RampReferenceShape : Prop :=
  ∀ (p : Params) (ep : U32),
    let r : Int := p.rampRefOffset + (ep.toNat / 2 ^ 16 : Nat)
    (p.rampRefConv = .wrap → rampRef p ep = (r + 32768) % 65536 - 32768) ∧
    (p.rampRefConv = .saturate → rampRef p ep = if r < -32768 then -32768 else if 32767 < r then 32767 else r) ∧
    (p.rampRefOffset = -32678 →
      -32678 ≤ r ∧ r ≤ 32857 ∧ (ep.toNat < 0xFFA60000 → rampRef p ep = r) ∧
      (0xFFA60000 ≤ ep.toNat → p.rampRefConv = .wrap →
        rampRef p ep = r - 65536 ∧ -32768 ≤ rampRef p ep ∧ rampRef p ep ≤ -32679) ∧
      (0xFFA60000 ≤ ep.toNat → p.rampRefConv = .saturate → rampRef p ep = 32767))

/-- R173: at level 0 every shape's sample is 0, whatever the phase, the pitch and the configuration. -/
def Obligations.LevelZeroIsSilent : Prop :=
  ∀ (c : Config) (b : Bank), b.level = 0 → sampleValue c.toParams b = 0

/-- The negation identity (42_synthesizer.md section 4), read for configurations with `FORCE_SAW` false (notes/assumptions/13): Saw is the wrapped negation of Ramp for the same
registers: the exact negation but for -32768, which is its own; and -32768 needs a Ramp value of -32768 before scaling and full
level. -/
def Obligations.SawNegatesRamp : Prop :=
  ∀ (c : Config) (b : Bank), c.forceSaw = false →
    let v := sampleValue c.toParams { b with shape := .ramp }
    let saw := sampleValue c.toParams { b with shape := .saw }
    saw = (-v + 32768) % 65536 - 32768 ∧ (v ≠ -32768 → saw = -v) ∧ (v = -32768 → saw = -32768 ∧ b.level = 65535 ∧
      banded c.toParams (rampRef c.toParams (effectivePhase b)) .ramp10 .ramp100 (effectivePhase b) b.dividedPitch = -32768) ∧
    (c.rampRefConv = .wrap → c.rampRefOffset = -32678 → ∀ ep : U32, ep.toNat / 2 ^ 16 = 65446 → rampRef c.toParams ep = -32768)

/-- R175: every sample is an s16; at full level every shape but Saw lies in `[-32768, 32766]`. -/
def Obligations.SampleRange : Prop :=
  ∀ (c : Config) (b : Bank),
    -32768 ≤ sampleValue c.toParams b ∧ sampleValue c.toParams b ≤ 32767 ∧
    (b.level = 65535 → selectedShape c.toParams b ≠ .saw → sampleValue c.toParams b ≤ 32766)

/-- R176: continuity of the crossfade at the three band boundaries, for the three banded shapes at one fixed phase, before level
scaling: the value at each boundary, and how far the next pitch `x'` after a boundary `x` may be from it. -/
def Obligations.CrossfadeContinuity : Prop :=
  ∀ (c : Config) (ep : U32),
    ∀ row ∈ ([(triRef c.toParams ep, .tri10, .tri100), (rampRef c.toParams ep, .ramp10, .ramp100),
        (trapRef c.toParams ep, .trap10, .trap100)] : List (Int × Table × Table)),
      let V := banded c.toParams row.1 row.2.1 row.2.2 ep
      let l10 := lookup c.rom row.2.1 c.bandBits ep
      let l100 := lookup c.rom row.2.2 c.bandBits ep
      let w1 := 65535 / (c.p10.toInt - c.p1.toInt)
      let w2 := 65535 / (c.p100.toInt - c.p10.toInt)
      V c.p1 = row.1 ∧ (V c.p10 = l10 ∨ V c.p10 = l10 - 1) ∧ (V c.p100 = l100 ∨ V c.p100 = l100 - 1) ∧
      ∀ x x' : S16, x'.toInt = x.toInt + 1 →
        (x = c.p1 → |V x' - V x| ≤ (|l10 - row.1| * w1 + 65535) / 65536) ∧
        (x = c.p10 → |V x' - V x| ≤ (|l100 - l10| * w2 + 65535) / 65536 + 1) ∧
        (x = c.p100 → |V x' - V x| ≤ 1)

/-- The value of each shape (42_synthesizer.md section 2): the sine ignores `DIVIDED_PITCH`; Triangle, Ramp and Trapezoid scale
their banded value; Saw is the wrapped negation after scaling. -/
def Obligations.ShapeValues : Prop :=
  ∀ (c : Config) (b : Bank), c.forceSaw = false →
    let ep : U32 := b.initialPhase + b.dividedPhase
    let dp := b.dividedPitch
    let scaled := fun v : Int => v * b.level.toNat / 65536
    (b.shape = .sine → ∀ dp' : S16,
      sampleValue c.toParams { b with dividedPitch := dp' } = scaled (lookup c.rom .sine 10 ep)) ∧
    (b.shape = .triangle →
      sampleValue c.toParams b = scaled (banded c.toParams (triRef c.toParams ep) .tri10 .tri100 ep dp)) ∧
    (b.shape = .ramp →
      sampleValue c.toParams b = scaled (banded c.toParams (rampRef c.toParams ep) .ramp10 .ramp100 ep dp)) ∧
    (b.shape = .trapezoid →
      sampleValue c.toParams b = scaled (banded c.toParams (trapRef c.toParams ep) .trap10 .trap100 ep dp)) ∧
    (b.shape = .saw →
      sampleValue c.toParams b =
        (-(scaled (banded c.toParams (rampRef c.toParams ep) .ramp10 .ramp100 ep dp)) + 32768) % 65536 - 32768)
end

