-- ==== Sys2Proof/Laws/Arith.lean ====
section
/-! SUPPORT. Arithmetic of the block: the flooring shift and the interpolation step that the converter, the table lookup and
the crossfade share. -/

namespace Sys2Proof.Machine

/-- The flooring shift of a scaled difference lies between 0 and the difference. -/
theorem asr_scaled_bounds {x w : Int} {n : Nat} (h0 : 0 ≤ w) (h1 : w ≤ 2 ^ n) :
    (0 ≤ x → 0 ≤ asr (x * w) n ∧ asr (x * w) n ≤ x) ∧ (x ≤ 0 → x ≤ asr (x * w) n ∧ asr (x * w) n ≤ 0) := by
  have hp : (0 : Int) < 2 ^ n := by positivity
  unfold asr
  refine ⟨fun hx => ⟨Int.ediv_nonneg (mul_nonneg hx h0) hp.le, ?_⟩, fun hx => ⟨?_, ?_⟩⟩
  · exact Int.ediv_le_of_le_mul hp (mul_le_mul_of_nonneg_left h1 hx)
  · exact Int.le_ediv_of_mul_le hp (mul_le_mul_of_nonpos_left h1 hx)
  · exact Int.ediv_le_of_le_mul hp (by nlinarith)

/-- An interpolated value lies between its two ends. -/
theorem interpolate_between {a b w : Int} {n : Nat} (h0 : 0 ≤ w) (h1 : w ≤ 2 ^ n) :
    min a b ≤ a + asr ((b - a) * w) n ∧ a + asr ((b - a) * w) n ≤ max a b := by
  obtain ⟨hpos, hneg⟩ := asr_scaled_bounds (x := b - a) h0 h1
  rcases le_total a b with h | h
  · obtain ⟨l, u⟩ := hpos (by omega)
    simp only [min_eq_left h, max_eq_right h]
    omega
  · obtain ⟨l, u⟩ := hneg (by omega)
    simp only [min_eq_right h, max_eq_left h]
    omega

@[simp] theorem asr_zero (n : Nat) : asr 0 n = 0 := by simp [asr]

/-- A shift by 16 in the form `omega` reads. -/
theorem asr_16 (v : Int) : asr v 16 = v / 65536 := by simp [asr]

/-- The index of a lookup is inside a table of `2^B` entries (R153). -/
theorem lookupIndex_lt {B : Nat} (hB : B ≤ 32) (ep : U32) : lookupIndex B ep < 2 ^ B := by
  unfold lookupIndex
  rw [Nat.shiftRight_eq_div_pow, Nat.div_lt_iff_lt_mul (by positivity), ← pow_add]
  have : B + (32 - B) = 32 := by omega
  rw [this]
  exact ep.isLt

/-- The fraction of a lookup has 16 bits (R153). -/
theorem lookupFraction_lt (B : Nat) (ep : U32) : lookupFraction B ep < 65536 := by
  unfold lookupFraction
  exact lt_of_le_of_lt Nat.and_le_right (by decide)

/-- The folded pitch lies in the base octave (R111). -/
theorem foldedPitch_range {p : Params} (h : 1 ≤ p.kOctave) (pitch : S16) :
    0 ≤ foldedPitch p pitch ∧ foldedPitch p pitch < p.kOctave := by
  have hk : (0 : Int) < p.kOctave := by exact_mod_cast h
  have e : foldedPitch p pitch = pitch.toInt % (p.kOctave : Int) := by
    unfold foldedPitch octaveShift
    rw [Int.emod_def, mul_comm]
  rw [e]
  exact ⟨Int.emod_nonneg _ hk.ne', Int.emod_lt_of_pos _ hk⟩

/-- Both neighbours of an index are in `LUT_INC` (R13, R114). -/
theorem incIndex_lt {p : Params} (h : p.WellFormed) (pitch : S16) : incIndex p pitch + 1 < p.rom.lutInc.length := by
  obtain ⟨h0, h1⟩ := foldedPitch_range h.1 pitch
  have hl := h.2.1
  have : (foldedPitch p pitch).toNat ≤ p.kOctave - 1 := by omega
  have : incIndex p pitch ≤ (p.kOctave - 1) >>> p.incFracBits := by
    unfold incIndex
    rw [Nat.shiftRight_eq_div_pow, Nat.shiftRight_eq_div_pow]
    exact Nat.div_le_div_right this
  omega

/-- The interpolation fraction of the converter (R113). -/
theorem incFraction_eq (p : Params) (pitch : S16) :
    incFraction p pitch = (foldedPitch p pitch).toNat % 2 ^ p.incFracBits := by
  unfold incFraction
  exact Nat.and_two_pow_sub_one_eq_mod _ _

theorem incFraction_lt (p : Params) (pitch : S16) : incFraction p pitch < 2 ^ p.incFracBits := by
  rw [incFraction_eq]
  exact Nat.mod_lt _ (by positivity)

end Sys2Proof.Machine
end

