-- ==== Sys2Proof/Laws/State.lean ====
section
/-! SUPPORT. One lemma per field per update of State: what each named operation does to each field. -/

namespace Sys2Proof.Machine

@[simp] theorem State.setBank_cfg (s : State) (ch : Channel) (b : Bank) : (s.setBank ch b).cfg = s.cfg := rfl
@[simp] theorem State.setBank_banks (s : State) (ch : Channel) (b : Bank) :
    (s.setBank ch b).banks = s.banks.set ch.toNat b := rfl
@[simp] theorem State.setBank_status (s : State) (ch : Channel) (b : Bank) : (s.setBank ch b).status = s.status := rfl
@[simp] theorem State.setBank_commands (s : State) (ch : Channel) (b : Bank) :
    (s.setBank ch b).commands = s.commands := rfl
@[simp] theorem State.setBank_responses (s : State) (ch : Channel) (b : Bank) :
    (s.setBank ch b).responses = s.responses := rfl

@[simp] theorem State.respond_cfg (s : State) (d : U32) : (s.respond d).cfg = s.cfg := rfl
@[simp] theorem State.respond_banks (s : State) (d : U32) : (s.respond d).banks = s.banks := rfl
@[simp] theorem State.respond_status (s : State) (d : U32) : (s.respond d).status = s.status := rfl
@[simp] theorem State.respond_commands (s : State) (d : U32) : (s.respond d).commands = s.commands := rfl
@[simp] theorem State.respond_responses (s : State) (d : U32) :
    (s.respond d).responses = s.responses ++ [responseWord 0 d] := rfl

@[simp] theorem State.raise_cfg (s : State) (f : Cause) : (s.raise f).cfg = s.cfg := rfl
@[simp] theorem State.raise_banks (s : State) (f : Cause) : (s.raise f).banks = s.banks := rfl
@[simp] theorem State.raise_fault (s : State) (f : Cause) : (s.raise f).status.fault = true := rfl
@[simp] theorem State.raise_cause (s : State) (f : Cause) : (s.raise f).status.cause = causeCode f := rfl
@[simp] theorem State.raise_commands (s : State) (f : Cause) : (s.raise f).commands = s.commands := rfl
@[simp] theorem State.raise_responses (s : State) (f : Cause) :
    (s.raise f).responses = s.responses ++ [responseWord (causeCode f) 0] := rfl

@[simp] theorem State.haltedResponse_cfg (s : State) : s.haltedResponse.cfg = s.cfg := rfl
@[simp] theorem State.haltedResponse_banks (s : State) : s.haltedResponse.banks = s.banks := rfl
@[simp] theorem State.haltedResponse_status (s : State) : s.haltedResponse.status = s.status := rfl
@[simp] theorem State.haltedResponse_commands (s : State) : s.haltedResponse.commands = s.commands := rfl
@[simp] theorem State.haltedResponse_responses (s : State) :
    s.haltedResponse.responses = s.responses ++ [responseWord s.status.cause 0] := rfl

@[simp] theorem State.present_cfg (s : State) (w : Command) : (s.present w).cfg = s.cfg := rfl
@[simp] theorem State.present_banks (s : State) (w : Command) : (s.present w).banks = s.banks := rfl
@[simp] theorem State.present_status (s : State) (w : Command) : (s.present w).status = s.status := rfl
@[simp] theorem State.present_commands (s : State) (w : Command) : (s.present w).commands = w :: s.commands := rfl
@[simp] theorem State.present_responses (s : State) (w : Command) : (s.present w).responses = s.responses := rfl

@[simp] theorem State.powerOn_cfg (c : Config) : (State.powerOn c).cfg = c := rfl
@[simp] theorem State.powerOn_banks (c : Config) :
    (State.powerOn c).banks = List.replicate c.nChannels (initBank c.toParams) := rfl
@[simp] theorem State.powerOn_fault (c : Config) : (State.powerOn c).status.fault = false := rfl
@[simp] theorem State.powerOn_cause (c : Config) : (State.powerOn c).status.cause = 0 := rfl
@[simp] theorem State.powerOn_commands (c : Config) : (State.powerOn c).commands = [] := rfl
@[simp] theorem State.powerOn_responses (c : Config) : (State.powerOn c).responses = [] := rfl

@[simp] theorem State.reset_eq : State.reset = State.powerOn Config.model := rfl

end Sys2Proof.Machine
end

