-- ==== Sys2Proof/Laws/Ops.lean ====
section
/-! SUPPORT. What the shared operations can do: the channel's bank read and written, and `onChannel`, which every meaning is
built on. -/

namespace Sys2Proof.Machine

/-- A bank is read exactly where the channel exists and its bank is held. -/
theorem State.bank?_eq_some {s : State} {ch : Channel} {b : Bank} :
    s.bank? ch = some b ↔ ch.toNat < s.cfg.nChannels ∧ s.banks[ch.toNat]? = some b := by
  unfold State.bank?
  split <;> simp_all

/-- `CH >= N_CHANNELS` names no bank. -/
theorem State.bank?_missing {s : State} {ch : Channel} (h : s.cfg.nChannels ≤ ch.toNat) : s.bank? ch = none := by
  simp [State.bank?, Nat.not_lt.mpr h]

/-- In a state with a bank per channel, an existing channel has a bank. -/
theorem State.bank?_exists {s : State} {ch : Channel} (hl : s.banks.length = s.cfg.nChannels)
    (h : ch.toNat < s.cfg.nChannels) : ∃ b, s.bank? ch = some b ∧ b ∈ s.banks :=
  ⟨s.banks[ch.toNat], by simp [State.bank?, h, hl], List.getElem_mem _⟩

theorem State.mem_of_bank? {s : State} {ch : Channel} {b : Bank} (h : s.bank? ch = some b) : b ∈ s.banks :=
  List.mem_of_getElem? (State.bank?_eq_some.mp h).2

/-- A bank written is the bank read. -/
theorem State.bank?_setBank_self {s : State} {ch : Channel} {b b' : Bank} (h : s.bank? ch = some b) :
    (s.setBank ch b').bank? ch = some b' := by
  obtain ⟨h1, h2⟩ := State.bank?_eq_some.mp h
  refine State.bank?_eq_some.mpr ⟨h1, ?_⟩
  have : ch.toNat < s.banks.length := (List.getElem?_eq_some_iff.mp h2).1
  simp [this]

/-- Writing one channel's bank leaves every other as it was. -/
theorem State.bank?_setBank_other {s : State} {ch c : Channel} {b : Bank} (h : c ≠ ch) :
    (s.setBank ch b).bank? c = s.bank? c := by
  have : ch.toNat ≠ c.toNat := fun e => h (BitVec.eq_of_toNat_eq e.symm)
  simp [State.bank?, List.getElem?_set_ne this]

@[simp] theorem State.bank?_respond (s : State) (d : U32) (c : Channel) : (s.respond d).bank? c = s.bank? c := rfl
@[simp] theorem State.bank?_raise (s : State) (f : Cause) (c : Channel) : (s.raise f).bank? c = s.bank? c := rfl
@[simp] theorem State.bank?_haltedResponse (s : State) (c : Channel) : s.haltedResponse.bank? c = s.bank? c := rfl

theorem onChannel_halted {ch : Channel} {s : State} {rule : Bank → Result} (h : s.status.fault = true) :
    onChannel ch s rule = .next s.haltedResponse := by simp [onChannel, h]

theorem onChannel_missing {ch : Channel} {s : State} {rule : Bank → Result} (h : s.status.fault = false)
    (hb : s.bank? ch = none) : onChannel ch s rule = .next (s.raise .illegalCommand) := by simp [onChannel, h, hb]

theorem onChannel_run {ch : Channel} {s : State} {rule : Bank → Result} {b : Bank} (h : s.status.fault = false)
    (hb : s.bank? ch = some b) : onChannel ch s rule = rule b := by simp [onChannel, h, hb]

/-- Everything `onChannel` can do: answer as a halted block, raise ILLEGAL_COMMAND, or run the rule on the bank. -/
theorem onChannel_cases (ch : Channel) (s : State) (rule : Bank → Result) :
    (s.status.fault = true ∧ onChannel ch s rule = .next s.haltedResponse) ∨
    (s.status.fault = false ∧ s.bank? ch = none ∧ onChannel ch s rule = .next (s.raise .illegalCommand)) ∨
    (s.status.fault = false ∧ ∃ b, s.bank? ch = some b ∧ onChannel ch s rule = rule b) := by
  cases hf : s.status.fault with
  | true => exact .inl ⟨rfl, onChannel_halted hf⟩
  | false =>
    cases hb : s.bank? ch with
    | none => exact .inr (.inl ⟨rfl, rfl, onChannel_missing hf hb⟩)
    | some b => exact .inr (.inr ⟨rfl, b, rfl, onChannel_run hf hb⟩)

/-- Two words side by side, as a number (R16). -/
theorem toNat_concat {m n : Nat} (x : BitVec m) (y : BitVec n) : (x ++ y).toNat = x.toNat * 2 ^ n + y.toNat := by
  rw [BitVec.toNat_append, ← Nat.shiftLeft_add_eq_or_of_lt y.isLt, Nat.shiftLeft_eq]

/-- A field of a word, as a number (R16). -/
theorem toNat_bits {n : Nat} (v : BitVec n) (lo len : Nat) : (bits v lo len).toNat = v.toNat / 2 ^ lo % 2 ^ len := by
  simp [bits, Nat.shiftRight_eq_div_pow]

theorem toNat_responseWord (st : BitVec 4) (d : U32) :
    (responseWord st d).toNat = st.toNat * 2 ^ 32 + d.toNat := toNat_concat st d

@[simp] theorem responseStatus_responseWord (st : BitVec 4) (d : U32) : responseStatus (responseWord st d) = st := by
  apply BitVec.eq_of_toNat_eq
  have := st.isLt
  have := d.isLt
  rw [responseStatus, toNat_bits, toNat_responseWord]
  omega

@[simp] theorem responseData_responseWord (st : BitVec 4) (d : U32) : responseData (responseWord st d) = d := by
  apply BitVec.eq_of_toNat_eq
  have := d.isLt
  rw [responseData, toNat_bits, toNat_responseWord]
  omega

end Sys2Proof.Machine
end

