-- ==== Sys2Proof/Laws/Decode.lean ====
section
/-! SUPPORT. The fields of a command word, and what the decoder can answer. -/

namespace Sys2Proof

open Machine

/-- A command word as a number (R81). -/
theorem toNat_command (o : BitVec 4) (c : Channel) (d : U32) :
    (o ++ c ++ d).toNat = o.toNat * 2 ^ 36 + c.toNat * 2 ^ 32 + d.toNat := by
  rw [toNat_concat, toNat_concat]
  ring

theorem toNat_commandOp (w : Command) : (commandOp w).toNat = w.toNat / 2 ^ 36 % 2 ^ 4 := toNat_bits w 36 4
theorem toNat_commandCh (w : Command) : (commandCh w).toNat = w.toNat / 2 ^ 32 % 2 ^ 4 := toNat_bits w 32 4
theorem toNat_commandData (w : Command) : (commandData w).toNat = w.toNat / 2 ^ 0 % 2 ^ 32 := toNat_bits w 0 32

@[simp] theorem commandOp_append (o : BitVec 4) (c : Channel) (d : U32) : commandOp (o ++ c ++ d) = o := by
  apply BitVec.eq_of_toNat_eq
  have := o.isLt
  have := c.isLt
  have := d.isLt
  have := toNat_command o c d
  rw [toNat_commandOp]
  omega

@[simp] theorem commandCh_append (o : BitVec 4) (c : Channel) (d : U32) : commandCh (o ++ c ++ d) = c := by
  apply BitVec.eq_of_toNat_eq
  have := c.isLt
  have := d.isLt
  have := toNat_command o c d
  rw [toNat_commandCh]
  omega

@[simp] theorem commandData_append (o : BitVec 4) (c : Channel) (d : U32) : commandData (o ++ c ++ d) = d := by
  apply BitVec.eq_of_toNat_eq
  have := d.isLt
  have := toNat_command o c d
  rw [toNat_commandData]
  omega

/-- A word is its three fields. -/
theorem command_fields (w : Command) : w = commandOp w ++ commandCh w ++ commandData w := by
  apply BitVec.eq_of_toNat_eq
  have := w.isLt
  rw [toNat_command, toNat_commandOp, toNat_commandCh, toNat_commandData]
  omega

@[simp] theorem opcodeOfBits_opcodeBits (o : Opcode) : opcodeOfBits (opcodeBits o) = some o := by cases o <;> rfl

/-- An opcode read is the opcode's own bits. -/
theorem opcodeBits_of_opcodeOfBits {op : BitVec 4} {o : Opcode} (h : opcodeOfBits op = some o) : opcodeBits o = op := by
  revert op o
  decide

/-- Reserved bits are clear exactly when `DATA` is below the operand's bound. -/
theorem reservedClear_iff {p : Params} {f : Form} {d : U32} :
    reservedClear p f d = true ↔ d.toNat < 2 ^ formWidth p f := by
  simp [reservedClear, Nat.shiftRight_eq_div_pow, Nat.div_eq_zero_iff]

/-- Everything `decode` answers, when it answers a command (R89). -/
theorem decode_ok_iff {p : Params} {w : Command} {i : Instr} :
    decode p w = .ok i ↔ ∃ o, opcodeOfBits (commandOp w) = some o ∧ (commandCh w).toNat < p.nChannels ∧
      (commandData w).toNat < 2 ^ formWidth p (opcodeForm o) ∧ i = assembleInstr p o (commandCh w) (commandData w) := by
  unfold decode
  cases h : opcodeOfBits (commandOp w) with
  | none => simp
  | some o =>
    by_cases hc : p.nChannels ≤ (commandCh w).toNat
    · simp [hc, Nat.not_lt.mpr hc]
    · have hlt := Nat.lt_of_not_le hc
      by_cases hr : reservedClear p (opcodeForm o) (commandData w) = true
      · simp [hc, hr, hlt, reservedClear_iff.mp hr, eq_comm]
      · have : ¬ (commandData w).toNat < 2 ^ formWidth p (opcodeForm o) := fun h => hr (reservedClear_iff.mpr h)
        simp [hc, hr, this]

end Sys2Proof
end

