-- ==== Sys2Proof/Laws/Exec.lean ====
section
/-! SUPPORT. Everything a command can do, said once: on a live channel a command either raises one of the two faults or leaves
one new bank and one response, and both depend on the configuration and that bank alone. -/

namespace Sys2Proof.Machine

/-- What the rule of a command makes of its channel's bank: a fault, or the new bank and the response data. -/
def bankEffect (p : Params) (i : Instr) (b : Bank) : Except Cause (Bank × U32) :=
  match i with
  | .nop _ => .ok (b, 0)
  | .init _ => .ok (initBank p, 0)
  | .setPitch _ pitch => .ok (loadPitch p b pitch, 0)
  | .setShape _ code =>
    match shapeOfCode code with
    | none => .error .illegalCommand
    | some sh => .ok ({ b with shape := sh }, 0)
  | .setLevel _ v => .ok ({ b with level := v }, 0)
  | .setDivider _ v =>
    if reservedClear p .immdiv v then if v = 0 then .error .dividerZero else .ok (loadDivider b v, 0)
    else .error .illegalCommand
  | .setInitialPhase _ v => .ok ({ b with initialPhase := v }, 0)
  | .setDividedPitch _ v => .ok ({ b with dividedPitch := v }, 0)
  | .step _ => .ok (stepBank b, 0)
  | .sample _ => .ok (b, sext32 (s16OfInt (sampleValue p b)))
  | .readReg _ r =>
    match regOfNumber r with
    | none => .error .illegalCommand
    | some r => .ok (b, readRegister b r)

/-- The state an effect leaves. -/
def State.apply (s : State) (ch : Channel) : Except Cause (Bank × U32) → State
  | .error f => s.raise f
  | .ok (b, d) => (s.setBank ch b).respond d

/-- Writing back the bank that is there changes nothing. -/
theorem State.setBank_same {s : State} {ch : Channel} {b : Bank} (h : s.bank? ch = some b) : s.setBank ch b = s := by
  obtain ⟨hl, he⟩ := List.getElem?_eq_some_iff.mp (State.bank?_eq_some.mp h).2
  have : s.banks.set ch.toNat b = s.banks := by rw [← he]; exact List.set_getElem_self hl
  simp [State.setBank, this]

/-- A halted block answers every command with its cause (R224). -/
theorem exec_halted {i : Instr} {s : State} (h : s.status.fault = true) : exec i s = .next s.haltedResponse := by
  cases i <;> exact onChannel_halted h

/-- A command on a channel that does not exist raises ILLEGAL_COMMAND (R82). -/
theorem exec_missing {i : Instr} {s : State} (h : s.status.fault = false) (hb : s.bank? i.channel = none) :
    exec i s = .next (s.raise .illegalCommand) := by
  cases i <;> exact onChannel_missing h hb

/-- On a live channel every command but STEP with a zero divider has its effect. -/
theorem exec_live {i : Instr} {s : State} {b : Bank} (h : s.status.fault = false) (hb : s.bank? i.channel = some b)
    (hd : i.opcode = .step → b.divider ≠ 0) :
    exec i s = .next (s.apply i.channel (bankEffect s.cfg.toParams i b)) := by
  cases i with
  | nop ch => exact (onChannel_run h hb).trans (by simp only [State.apply, bankEffect, State.setBank_same hb])
  | sample ch => exact (onChannel_run h hb).trans (by simp only [State.apply, bankEffect, State.setBank_same hb])
  | readReg ch r =>
    refine (onChannel_run h hb).trans ?_
    cases hr : regOfNumber r <;> simp only [State.apply, bankEffect, State.setBank_same hb, hr]
  | setShape ch code =>
    refine (onChannel_run h hb).trans ?_
    cases hr : shapeOfCode code <;> simp [State.apply, State.writeBank, bankEffect, Instr.channel, hr]
  | setDivider ch v =>
    refine (onChannel_run h hb).trans ?_
    simp only [bankEffect, Instr.channel]
    split <;> [split; skip] <;> rfl
  | step ch =>
    refine (onChannel_run h hb).trans ?_
    rw [if_neg (hd rfl)]
    rfl
  | init ch => exact onChannel_run h hb
  | setPitch ch pitch => exact onChannel_run h hb
  | setLevel ch v => exact onChannel_run h hb
  | setInitialPhase ch v => exact onChannel_run h hb
  | setDividedPitch ch v => exact onChannel_run h hb

/-- STEP with a zero divider, which no reachable state has. -/
theorem exec_step_zero {ch : Channel} {s : State} {b : Bank} (h : s.status.fault = false) (hb : s.bank? ch = some b)
    (hd : b.divider = 0) : exec (.step ch) s = .fault .divisionByZero :=
  (onChannel_run h hb).trans (if_pos hd)

/-- Everything `exec` does when it answers a next state. -/
theorem exec_next_cases {i : Instr} {s t : State} (h : exec i s = .next t) :
    (s.status.fault = true ∧ t = s.haltedResponse) ∨
    (s.status.fault = false ∧ s.bank? i.channel = none ∧ t = s.raise .illegalCommand) ∨
    (s.status.fault = false ∧ ∃ b, s.bank? i.channel = some b ∧ (i.opcode = .step → b.divider ≠ 0) ∧
      t = s.apply i.channel (bankEffect s.cfg.toParams i b)) := by
  cases hf : s.status.fault with
  | true => exact .inl ⟨rfl, by simpa [exec_halted hf] using h.symm⟩
  | false =>
    cases hb : s.bank? i.channel with
    | none => exact .inr (.inl ⟨rfl, rfl, by simpa [exec_missing hf hb] using h.symm⟩)
    | some b =>
      have hd : i.opcode = .step → b.divider ≠ 0 := by
        intro ho hz
        cases i <;> first | exact Opcode.noConfusion ho | skip
        exact absurd ((exec_step_zero hf hb hz).symm.trans h) (by simp)
      exact .inr (.inr ⟨rfl, b, rfl, hd, by simpa [exec_live hf hb hd] using h.symm⟩)

/-- Everything a step does with the first word presented (R89, R224). -/
theorem step_cons {s : State} {w : Command} {rest : List Command} (h : s.commands = w :: rest) :
    (s.status.fault = true ∧ step s = .next ({ s with commands := rest } : State).haltedResponse) ∨
    (s.status.fault = false ∧ (∃ e, decode s.cfg.toParams w = .error e) ∧
      step s = .next (({ s with commands := rest } : State).raise .illegalCommand)) ∨
    (s.status.fault = false ∧ ∃ i, decode s.cfg.toParams w = .ok i ∧ step s = exec i { s with commands := rest }) := by
  have e : step s = runCommand w { s with commands := rest } := by simp [step, serve, h]
  rw [e]
  unfold runCommand
  cases hf : s.status.fault with
  | true => exact .inl ⟨rfl, by simp⟩
  | false =>
    cases hd : decode s.cfg.toParams w with
    | error x => exact .inr (.inl ⟨rfl, ⟨x, rfl⟩, by simp⟩)
    | ok i => exact .inr (.inr ⟨rfl, i, rfl, by simp⟩)

/-- An idle step (R236, R252). -/
theorem step_nil {s : State} (h : s.commands = []) : step s = .next s := by simp [step, serve, h]

end Sys2Proof.Machine
end

