-- ==== Sys2Proof/Laws/Memory.lean ====
section
/-! SUPPORT. The ROM: `MemRead` on a table's addresses is the table's entry, an entry exists exactly inside the table, and no
operation changes the ROM or its canonical form. -/

namespace Sys2Proof.Machine

@[simp] theorem tableOfId_tableId (t : Table) : tableOfId (tableId t) = some t := by cases t <;> rfl

/-- A table has an entry exactly below its length. -/
theorem tableEntry_isSome {r : Rom} {t : Table} {i : Nat} : (tableEntry r t i).isSome ↔ i < tableEntries r t := by
  cases t <;> simp [tableEntry, tableEntries]

/-- `T[i]` is `MemRead(base(T) + i, width(T))` for every index an address can hold (R20, R62, R64). -/
theorem memRead_base {r : Rom} {t : Table} {i : Nat} (h : i < 2 ^ 16) :
    memRead r (tableBase t + i) (tableWidth t) = tableEntry r t i := by
  have hd : (tableBase t + i) / 2 ^ 16 = tableId t := by unfold tableBase; omega
  have hm : (tableBase t + i) % 2 ^ 16 = i := by unfold tableBase; omega
  unfold memRead
  rw [hd, hm]
  simp

/-- A reserved table id holds nothing (R63). -/
theorem memRead_reserved {r : Rom} {addr n : Nat} (h : 11 ≤ addr / 2 ^ 16) : memRead r addr n = none := by
  have : tableOfId (addr / 2 ^ 16) = none := by
    generalize addr / 2 ^ 16 = k at h
    unfold tableOfId
    split <;> first | omega | rfl
  unfold memRead
  rw [this]

/-- A word inside its table is what `T[i]` reads. -/
theorem romWord_eq {r : Rom} {t : Table} {i : Nat} {v : Int} (h : tableEntry r t i = some v) : romWord r t i = v := by
  simp [romWord, h]

/-- Every word of a wavetable is an s16. -/
theorem tableEntry_s16 {r : Rom} {t : Table} {i : Nat} {v : Int} (ht : t ≠ .lutInc) (h : tableEntry r t i = some v) :
    -32768 ≤ v ∧ v ≤ 32767 := by
  have key : ∀ l : List S16, (l[i]?).map BitVec.toInt = some v → -32768 ≤ v ∧ v ≤ 32767 := by
    intro l hl
    obtain ⟨x, -, rfl⟩ := Option.map_eq_some_iff.mp hl
    have h1 := BitVec.toInt_lt (x := x)
    have h2 := BitVec.le_toInt x
    constructor <;> [simpa using h2; (have := h1; simp at this; omega)]
  cases t <;> first | exact absurd rfl ht | exact key _ h

/-- Every word of `LUT_INC` is a u32. -/
theorem tableEntry_u32 {r : Rom} {i : Nat} {v : Int} (h : tableEntry r .lutInc i = some v) : 0 ≤ v ∧ v < 2 ^ 32 := by
  obtain ⟨x, -, rfl⟩ := Option.map_eq_some_iff.mp h
  have := x.isLt
  omega

/-- The canonical form of the ROM holds in every state: a configuration carries it. -/
theorem State.memory_wf (s : State) : Memory.wf s.cfg.bandBits s.cfg.rom := s.cfg.wellFormed.2.2.1

/-- The reset state's memory has the canonical form. -/
theorem State.reset_memory_wf : Memory.wf State.reset.cfg.bandBits State.reset.cfg.rom := State.reset.memory_wf

end Sys2Proof.Machine
end

