-- ==== Sys2Proof/Laws/PerInstr.lean ====
section
/-! SUPPORT. The statement about every constructor of `Instr` made one instruction at a time: the encoder puts the opcode of
30_encoding.md R85 in `OP`, the channel in `CH` and the operand in `DATA`, and sets no reserved bit (R81, R84, R88). -/

namespace Sys2Proof.Laws

open Machine

/-- The three fields of an encoded command, with the reserved bits of its form clear. -/
def EncodeFields.Statement (i : Instr) : Prop :=
  ∀ p : Params, i.WellFormed p →
    commandOp (encode i) = opcodeBits i.opcode ∧ commandCh (encode i) = i.channel ∧
    (commandData (encode i)).toNat < 2 ^ formWidth p (opcodeForm i.opcode)

/-- The fields of `encode`, whatever the command. -/
theorem encode_fields (i : Instr) : commandOp (encode i) = opcodeBits i.opcode ∧ commandCh (encode i) = i.channel ∧
    commandData (encode i) = operandData i := by
  unfold encode
  exact ⟨commandOp_append .., commandCh_append .., commandData_append ..⟩

/-- It is enough that the operand fits. -/
theorem EncodeFields.of_fits {i : Instr}
    (h : ∀ p : Params, i.WellFormed p → (operandData i).toNat < 2 ^ formWidth p (opcodeForm i.opcode)) :
    EncodeFields.Statement i := by
  intro p hw
  obtain ⟨h1, h2, h3⟩ := encode_fields i
  exact ⟨h1, h2, h3 ▸ h p hw⟩

/-- A zero-extended operand fits the width it came from. -/
theorem zext32_lt {n : Nat} (v : BitVec n) (hn : n ≤ 32) : (zext32 v).toNat < 2 ^ n := by
  unfold zext32
  rw [BitVec.toNat_setWidth, Nat.mod_eq_of_lt (lt_of_lt_of_le v.isLt (Nat.pow_le_pow_right (by decide) hn))]
  exact v.isLt

theorem EncodeFields.nop (ch : Channel) : EncodeFields.Statement (.nop ch) := of_fits fun _ _ => Nat.one_pos
theorem EncodeFields.init (ch : Channel) : EncodeFields.Statement (.init ch) := of_fits fun _ _ => Nat.one_pos
theorem EncodeFields.setPitch (ch : Channel) (pitch : S16) : EncodeFields.Statement (.setPitch ch pitch) :=
  of_fits fun _ _ => zext32_lt pitch (by decide)
theorem EncodeFields.setShape (ch : Channel) (code : BitVec 3) : EncodeFields.Statement (.setShape ch code) :=
  of_fits fun _ _ => zext32_lt code (by decide)
theorem EncodeFields.setLevel (ch : Channel) (level : U16) : EncodeFields.Statement (.setLevel ch level) :=
  of_fits fun _ _ => zext32_lt level (by decide)
theorem EncodeFields.setDivider (ch : Channel) (divider : U32) : EncodeFields.Statement (.setDivider ch divider) :=
  of_fits fun _ hw => of_decide_eq_true hw.2
theorem EncodeFields.setInitialPhase (ch : Channel) (phase : U32) : EncodeFields.Statement (.setInitialPhase ch phase) :=
  of_fits fun _ _ => phase.isLt
theorem EncodeFields.setDividedPitch (ch : Channel) (pitch : S16) : EncodeFields.Statement (.setDividedPitch ch pitch) :=
  of_fits fun _ _ => zext32_lt pitch (by decide)
theorem EncodeFields.step (ch : Channel) : EncodeFields.Statement (.step ch) := of_fits fun _ _ => Nat.one_pos
theorem EncodeFields.sample (ch : Channel) : EncodeFields.Statement (.sample ch) := of_fits fun _ _ => Nat.one_pos
theorem EncodeFields.readReg (ch : Channel) (reg : BitVec 4) : EncodeFields.Statement (.readReg ch reg) :=
  of_fits fun _ _ => zext32_lt reg (by decide)

end Sys2Proof.Laws
end

