-- ==== Sys2Proof/Laws/Run.lean ====
section
/-! SUPPORT. Runs of the machine: one step unfolded, and what holds at a state and is kept by every step holds after any number of
them. -/

namespace Sys2Proof.Machine

/-- No step. -/
@[simp] theorem run_zero (s : State) : Host.Core.run Sys2Proof.core 0 s = .next s := rfl

/-- The first step of a run. -/
theorem run_succ {s t : State} (k : Nat) (h : step s = .next t) :
    Host.Core.run Sys2Proof.core (k + 1) s = Host.Core.run Sys2Proof.core k t := by
  simp only [Host.Core.run]
  rw [show Sys2Proof.core.step s = .next t from h]

/-- An invariant under which a step always answers a next state that keeps it holds after any number of steps, and the run never
stops. -/
theorem run_induction {P : State → Prop} (hs : ∀ s, P s → ∃ t, step s = .next t ∧ P t) (k : Nat) {s : State} (h : P s) :
    ∃ t, Host.Core.run Sys2Proof.core k s = .next t ∧ P t := by
  induction k generalizing s with
  | zero => exact ⟨s, rfl, h⟩
  | succ k ih =>
    obtain ⟨t, ht, hp⟩ := hs s h
    rw [run_succ k ht]
    exact ih hp

open Safety

@[simp] theorem execAll_nil (s : State) : execAll [] s = .next s := rfl

/-- The first command of a run of commands. -/
theorem execAll_cons {i : Instr} {s t : State} (is : List Instr) (h : exec i s = .next t) :
    execAll (i :: is) s = execAll is t := by simp only [execAll, h]

@[simp] theorem ticks_zero (ch : Channel) (s : State) : ticks 0 ch s = .next s := rfl

/-- The first of `n + 1` ticks. -/
theorem ticks_succ {ch : Channel} {s t : State} (n : Nat) (h : exec (.step ch) s = .next t) :
    ticks (n + 1) ch s = ticks n ch t := execAll_cons _ h

/-- What the first command of a run adds to a count of ticks. -/
theorem countTicks_cons {ch : Channel} {p : Bank → Bank → Bool} {i : Instr} {s t : State} {b b' : Bank} (is : List Instr)
    (h : exec i s = .next t) (hb : s.bank? ch = some b) (hb' : t.bank? ch = some b') :
    countTicks ch p (i :: is) s =
      (if i = .step ch ∧ s.status.fault = false ∧ p b b' = true then 1 else 0) + countTicks ch p is t := by
  simp only [countTicks, h, hb, hb']

end Sys2Proof.Machine
end

