-- ==== Sys2Proof/Laws/Synth.lean ====
section
/-! SUPPORT. The triangle given as data: `TRI_REF` may be any function u32 → s16 (00_scope.md R12). -/

namespace Sys2Proof.Machine

/-- The piece that holds a function's value at one phase. -/
def pointPiece (f : U32 → S16) (n : Nat) : TriPiece :=
  { start := BitVec.ofNat 32 n, base := (f (BitVec.ofNat 32 n)).toInt, slope := 0, shift := 0 }

theorem triPieceValue_pointPiece (f : U32 → S16) (ep : U32) : triPieceValue (pointPiece f ep.toNat) ep = f ep := by
  simp [triPieceValue, pointPiece, s16OfInt]

/-- Among the points below `N`, the one that counts at a phase below `N` is the phase's own. -/
theorem triPieceAt_points (f : U32 → S16) (first : TriPiece) (ep : U32) (N : Nat) (hN : N ≤ 2 ^ 32) (h : ep.toNat < N) :
    triPieceAt first ((List.range N).map (pointPiece f)) ep = pointPiece f ep.toNat := by
  induction N with
  | zero => exact absurd h (Nat.not_lt_zero _)
  | succ N ih =>
    have hs : (pointPiece f N).start.toNat = N := Nat.mod_eq_of_lt (Nat.lt_of_succ_le hN)
    unfold triPieceAt at ih ⊢
    rw [List.range_succ, List.map_append, List.foldl_append, List.map_singleton, List.foldl_cons, List.foldl_nil, hs]
    split
    · rw [show N = ep.toNat by omega]
    · exact ih (by omega) (by omega)

/-- Every function u32 → s16 is the triangle of some configuration data. -/
theorem exists_triRef (f : U32 → S16) : ∃ r : TriRef, ∀ (p : Params) (ep : U32), p.triRef = r → triRef p ep = (f ep).toInt := by
  refine ⟨.pieces (pointPiece f 0) ((List.range (2 ^ 32)).map (pointPiece f)), fun p ep h => ?_⟩
  rw [triRef, h]
  simp only
  rw [triPieceAt_points f _ ep _ le_rfl ep.isLt, triPieceValue_pointPiece]

end Sys2Proof.Machine
end

