-- ==== Sys2Proof/Tests/Slice0.lean ====
section
/-! SUPPORT. The model's own tests. Expected values are the spec's: the example words of 30_encoding.md R94, and the vectors of
95_test_vectors.md under its configuration TC1; each theorem names its source. The witness theorems show states and operands that
meet the hypotheses of the statements in Certificates/Slice0/Obligations.lean. -/

namespace Sys2Proof.Tests

open Machine Safety

/-! ### Configurations -/

/-- The entries of TC1's sine table that the vectors use (95_test_vectors.md section 0); 0 elsewhere. -/
def sineEntry : Nat → S16
  | 1 => 201
  | 2 => 402
  | 255 => 32766
  | 256 => 32767
  | 257 => 32766
  | 768 => -32767
  | 1023 => -201
  | _ => 0

/-- TC1's ROM. -/
def tc1Rom : Rom where
  sine := (List.range 1024).map sineEntry
  tri1 := List.replicate 1024 0
  tri10 := List.replicate 1024 1000
  tri100 := (List.range 1024).map fun i => BitVec.ofInt 16 (64 * i - 32768)
  ramp1 := List.replicate 1024 0
  ramp10 := List.replicate 1024 2000
  ramp100 := List.replicate 1024 (-2000)
  trap1 := List.replicate 1024 0
  trap10 := List.replicate 1024 4000
  trap100 := List.replicate 1024 (-4000)
  lutInc := (List.range 12).map (fun i => BitVec.ofNat 32 (0x01000000 + i * 0x00155555)) ++ [0x02000000]

/-- TC1 (95_test_vectors.md section 0). -/
def tc1Params : Params where
  nChannels := 4
  dividerBits := 16
  kOctave := 1536
  incFracBits := 7
  bandBits := 10
  rom := tc1Rom
  p1 := -2000
  p10 := 0
  p100 := 2000
  rampRefOffset := -32678
  rampRefConv := .wrap
  triRef := .default158
  forceSaw := false
  defaultPitch := 0
  defaultShape := .triangle

def tc1 : Config where
  toParams := tc1Params
  wellFormed := by decide +kernel

/-- Another corner of R13: 16 channels, 32-bit dividers, two-entry band tables, `FORCE_SAW`, SATURATE and a device's own
triangle. -/
def cornerParams : Params :=
  { tc1Params with
    nChannels := 16, dividerBits := 32, bandBits := 1, rampRefConv := .saturate, triRef := .pieces ⟨0, -100, 1, 24⟩ [⟨0x80000000, 100, -1, 24⟩], forceSaw := true
    rom :=
      let z := [0x8000#16, 0x7FFF#16]
      { tc1Rom with tri1 := z, tri10 := z, tri100 := z, ramp1 := z, ramp10 := z, ramp100 := z, trap1 := z, trap10 := z,
                    trap100 := z } }

def corner : Config where
  toParams := cornerParams
  wellFormed := by decide +kernel

/-- R13: an ill-formed configuration is refused (`P1 = P10`). -/
theorem test_illFormed_configuration_refused : Config.ofParams { tc1Params with p1 := 0 } = none := by
  refine dif_neg fun h => absurd h.2.2.2.1 (by decide)

/-- A well-formed configuration is accepted. -/
theorem test_wellFormed_configuration_accepted : Config.ofParams tc1Params = some tc1 := dif_pos tc1.wellFormed

/-! ### States -/

/-- TC1 after power-on. -/
def live : State := State.powerOn tc1

/-- TC1 with channel 0's bank given. -/
def withBank (b : Bank) : State := live.setBank 0 b

/-- TC1 halted by a DIVIDER_ZERO fault. -/
def halted : State := live.raise .dividerZero

/-- Where one presented word leads. -/
def after (s : State) (w : Command) : Option State :=
  match step (s.present w) with
  | .next t => some t
  | _ => none

/-- `STATUS` and `RDATA` of the response to one presented word. -/
def response (s : State) (w : Command) : Option (BitVec 4 × U32) :=
  ((after s w).bind (·.responses.getLast?)).map fun r => (responseStatus r, responseData r)

/-- A register of channel 0 after one presented word, as READ_REG would give it. -/
def regAfter (s : State) (w : Command) (r : RegName) : Option U32 :=
  ((after s w).bind (·.bank? 0)).map (readRegister · r)

/-! ### WellFormed smoke tests -/

/-- R82: channel 4 of 4 does not exist. -/
theorem test_wellFormed_refuses_missing_channel : ¬ (Instr.nop 4).WellFormed tc1Params := by decide
/-- R84: a divider of 17 bits does not fit `DIVIDER_BITS = 16`. -/
theorem test_wellFormed_refuses_wide_divider : ¬ (Instr.setDivider 0 65536).WellFormed tc1Params := by decide
/-- R195: shape code 5. -/
theorem test_legal_refuses_shape_code : ¬ (Instr.setShape 0 5).Legal tc1Params := by decide
/-- R199: register number 10. -/
theorem test_legal_refuses_register : ¬ (Instr.readReg 0 10).Legal tc1Params := by decide
/-- R139: divider value 0. -/
theorem test_legal_refuses_zero_divider : ¬ (Instr.setDivider 0 0).Legal tc1Params := by decide
/-- The largest operands are well formed and legal. -/
theorem test_legal_accepts_boundaries : (Instr.setDivider 3 65535).Legal tc1Params ∧ (Instr.setShape 3 4).Legal tc1Params ∧
    (Instr.readReg 3 9).Legal tc1Params := by decide

/-! ### Decoding: words written out from R81, R84 and R85 (the examples of R94, and the edge words of 95 section 2.1) -/

theorem test_decode_nop : decode tc1Params 0x0000000000 = .ok (.nop 0) := by decide
theorem test_decode_init : decode tc1Params 0x1200000000 = .ok (.init 2) := by decide
theorem test_decode_set_pitch : decode tc1Params 0x200000FA00 = .ok (.setPitch 0 (-1536)) := by decide
theorem test_decode_set_shape : decode tc1Params 0x3300000004 = .ok (.setShape 3 4) := by decide
theorem test_decode_set_level : decode tc1Params 0x400000FFFF = .ok (.setLevel 0 65535) := by decide
theorem test_decode_set_divider : decode tc1Params 0x500000FFFF = .ok (.setDivider 0 65535) := by decide
theorem test_decode_set_initial_phase : decode tc1Params 0x60FFFFFFFF = .ok (.setInitialPhase 0 0xFFFFFFFF) := by decide
theorem test_decode_set_divided_pitch : decode tc1Params 0x700000FFFF = .ok (.setDividedPitch 0 (-1)) := by decide
theorem test_decode_step : decode tc1Params 0x8300000000 = .ok (.step 3) := by decide
theorem test_decode_sample : decode tc1Params 0x9000000000 = .ok (.sample 0) := by decide
theorem test_decode_read_reg : decode tc1Params 0xA000000002 = .ok (.readReg 0 2) := by decide
/-- With `DIVIDER_BITS = 32` the `immdiv` form has no reserved bit (R84). -/
theorem test_decode_wide_divider : decode cornerParams 0x5FFFFFFFFF = .ok (.setDivider 15 0xFFFFFFFF) := by decide

/-- R89: opcode first, then channel, then reserved bits. -/
theorem test_decode_order : decode tc1Params 0xBF00000001 = .error .reservedOpcode ∧
    decode tc1Params 0x0F00000001 = .error .noSuchChannel ∧ decode tc1Params 0x0000000001 = .error .reservedBits := by decide
/-- Reserved bits just above each operand (95 section 2.1). -/
theorem test_decode_reserved_bits : decode tc1Params 0x2000010000 = .error .reservedBits ∧
    decode tc1Params 0x4080000000 = .error .reservedBits ∧ decode tc1Params 0x3000000008 = .error .reservedBits ∧
    decode tc1Params 0xA000000010 = .error .reservedBits ∧ decode tc1Params 0x5000010000 = .error .reservedBits := by decide

/-- The decoder of the opcode table runs on the reset configuration. -/
theorem test_decodeTableWord : decodeTableWord 40 0xA30000000F = some (.readReg 3 15) ∧
    decodeTableWord 40 0xF000000000 = none := by decide
/-- The reset machine runs a placed word first. -/
theorem test_withFetchWord : step (State.reset.withFetchWord 40 0x2300000007) = exec (.setPitch 3 7) State.reset := rfl

/-! ### Commands (95 sections 2.2 to 2.6) -/

/-- R190. -/
theorem test_nop : response live 0x0000000000 = some (0, 0) := by decide
/-- R192, 43_control_commands.md example: the increment of pitch 0 is `LUT_INC[0]`. -/
theorem test_init : regAfter (withBank { initBank tc1Params with phaseInc := 5, divider := 7 }) 0x1000000000 .phaseInc =
    some 0x01000000 := by decide
/-- R117 example and 2.2: an interpolated increment, and a downward fold. -/
theorem test_set_pitch : regAfter live 0x2000000040 .phaseInc = some 0x010AAAAA ∧
    regAfter live 0x2000008000 .phaseInc = some 0x00000006 := by decide
/-- 2.2: the octave shift overflows to 0; high bits are lost; one octave down. -/
theorem test_set_pitch_shifts : inc tc1Params 12288 = 0 ∧ inc tc1Params 32767 = 0x55200000 ∧ inc tc1Params (-1) = 0x00FFEAAA := by
  decide
/-- R195 example, and code 5. -/
theorem test_set_shape : regAfter live 0x3000000002 .shape = some 2 ∧ response live 0x3000000005 = some (1, 0) := by decide
/-- R196. -/
theorem test_set_level : regAfter live 0x4000008000 .level = some 32768 := by decide
/-- R138 example, and value 0. -/
theorem test_set_divider : regAfter (withBank { initBank tc1Params with divCounter := 3, divider := 4 }) 0x5000000002 .divCounter =
    some 1 ∧ response live 0x5000000000 = some (2, 0) := by decide
/-- R197. -/
theorem test_set_initial_phase : regAfter live 0x6040000000 .initialPhase = some 0x40000000 := by decide
/-- R198, R199: sign-extended. -/
theorem test_set_divided_pitch : regAfter live 0x700000FC18 .dividedPitch = some 0xFFFFFC18 := by decide
/-- 2.3, the table for divider 3: STEP 2 lands exactly on 0, which is a wrap. -/
theorem test_step_wraps : regAfter (withBank { initBank tc1Params with phase := 0x80000000, phaseInc := 0x80000000, divider := 3 })
    0x8000000000 .dividedPhase = some 0x55555555 := by decide
/-- 2.3: no wrap at `0x7FFFFFFF + 0x80000000`. -/
theorem test_step_no_wrap : regAfter (withBank { initBank tc1Params with phase := 0x7FFFFFFF, phaseInc := 0x80000000, divider := 3 })
    0x8000000000 .divCounter = some 0 := by decide
/-- R172 example: the sine at a quarter cycle. -/
theorem test_sample_sine : response (withBank { initBank tc1Params with shape := .sine, initialPhase := 0x40000000 }) 0x9000000000 =
    some (0, 0x00007FFE) := by decide +kernel
/-- Program P3 line 11: the Ramp crossfade at pitch -1000 and level 32768. -/
theorem test_sample_ramp : response (withBank { initBank tc1Params with
    shape := .ramp, initialPhase := 0x40000000, dividedPitch := -1000, level := 32768 }) 0x9000000000 =
    some (0, 0xFFFFF20A) := by decide +kernel
/-- R199: the level is zero-extended; register 10 is illegal. -/
theorem test_read_reg : response live 0xA000000006 = some (0, 0xFFFF) ∧ response live 0xA00000000A = some (1, 0) := by decide

/-- 2.4.3 and R174: the ramp overflow under both conversions, and the negation exception. -/
theorem test_ramp_overflow : rampRef tc1Params 0xFFA60000 = -32768 ∧ rampRef tc1Params 0xFFA50000 = 32767 ∧
    rampRef cornerParams 0xFFA60000 = 32767 ∧
    sampleValue tc1Params { initBank tc1Params with shape := .saw, initialPhase := 0xFFA60000, dividedPitch := -5000 } =
      -32768 := by decide
/-- R12: a triangle given as data: rising from -100 by one every `2^24` phases to 27, then falling from 100. -/
theorem test_triangle_as_data : triRef cornerParams 0 = -100 ∧ triRef cornerParams 0x7FFFFFFF = 27 ∧
    triRef cornerParams 0x80000000 = 100 ∧ triRef cornerParams 0x82000000 = 98 := by decide
/-- 2.4.4: Triangle around `P10`, and Trapezoid and Saw one pitch above `P1` and `P100`. -/
theorem test_crossfade : sampleValue tc1Params { initBank tc1Params with initialPhase := 0x40000000 } = 998 ∧
    sampleValue tc1Params { initBank tc1Params with initialPhase := 0x40000000, dividedPitch := 1 } = 990 ∧
    sampleValue tc1Params { initBank tc1Params with initialPhase := 0x40000000, dividedPitch := 2001, shape := .saw } = 2000 ∧
    sampleValue tc1Params { initBank tc1Params with initialPhase := 0x40000000, dividedPitch := 1, shape := .trapezoid } =
      3995 := by decide +kernel
/-- 2.4.4: the last entry interpolates toward entry 0. -/
theorem test_lookup_wraps : lookup tc1Rom .tri100 10 0xFFE00000 = -32 ∧ lookup tc1Rom .sine 10 0xFFFFFFFF = -1 := by decide +kernel
/-- 2.4, FORCE_SAW. -/
theorem test_force_saw : sampleValue { tc1Params with forceSaw := true }
    { initBank tc1Params with initialPhase := 0x40000000, dividedPitch := -5000 } = 16294 := by decide +kernel
/-- Program P4 and R227: a halted block answers with the first cause, whatever the word. -/
theorem test_halted : response halted 0x8000000000 = some (2, 0) ∧ response halted 0xF000000000 = some (2, 0) ∧
    (after halted 0x1000000000).map (·.banks) = some live.banks := by decide
/-- R63: a word of the ROM, and a reserved table id. -/
theorem test_memRead : memRead tc1Rom (3 * 65536 + 256) 2 = some (-16384) ∧ memRead tc1Rom (10 * 65536 + 12) 4 = some 0x02000000 ∧
    memRead tc1Rom (11 * 65536) 2 = none ∧ memRead tc1Rom 1024 2 = none := by decide +kernel

/-! ### Witnesses: states and operands that meet the hypotheses of the statements

Each `witness_<statement>` shows values that meet all hypotheses of that statement together, with boundary values where it has
several clauses. `live` is TC1 after power-on; `cornerLive` is the corner configuration after power-on. -/

/-- The corner configuration after power-on. -/
def cornerLive : State := State.powerOn corner

/-- The bank of an oscillator at half a cycle per tick, divided by 3, about to wrap for the last time before the counter returns. -/
def busy : Bank :=
  { initBank tc1Params with phase := 0x80000000, phaseInc := 0x80000000, divider := 3, divCounter := 2 }

/-- Not halted, and channel `ch` has a bank: the hypotheses that the statements about one command share. -/
theorem witness_ready : live.status.fault = false ∧ live.bank? 0 = some (initBank tc1Params) ∧
    live.bank? 3 = some (initBank tc1Params) ∧ (withBank busy).bank? 0 = some busy ∧
    cornerLive.status.fault = false ∧ cornerLive.bank? 15 = some (initBank cornerParams) := ⟨rfl, rfl, rfl, rfl, rfl, rfl⟩

/-- States that meet the invariant: after power-on, with a channel in use, and halted. -/
theorem witness_invariant : MachineInv live ∧ MachineInv (withBank busy) ∧ MachineInv halted ∧ MachineInv cornerLive := by
  decide

theorem witness_EncodeThenDecodeGivesTheCommand : (Instr.setDivider 3 65535).WellFormed tc1Params ∧
    (Instr.setDivider 15 0xFFFFFFFF).WellFormed cornerParams ∧ (Instr.setShape 0 7).WellFormed tc1Params := by decide
theorem witness_DecodeThenEncodeGivesTheWord : decode tc1Params 0x530000FFFF = .ok (.setDivider 3 65535) ∧
    decode cornerParams 0x5FFFFFFFFF = .ok (.setDivider 15 0xFFFFFFFF) := by decide
theorem witness_AssemblerEmitsNoReservedEncoding : assemble tc1Params .setPitch 3 (.dec (-32768)) = some (.setPitch 3 0x8000) ∧
    assemble tc1Params .setPitch 3 (.dec 32768) = none ∧ assemble tc1Params .readReg 0 (.dec 9) = some (.readReg 0 9) ∧
    assemble tc1Params .setDivider 0 (.dec 65535) = some (.setDivider 0 65535) ∧ assemble tc1Params .nop 4 .none = none ∧
    3 < tc1.nChannels ∧ assembleLine tc1Params "SET_DIVIDER 3, 0xFFFF" = some [.setDivider 3 65535] ∧
    assembleLine tc1Params "TICK 3" = some [.step 3, .sample 3] ∧ assembleLine tc1Params "TICK 4" = none ∧
    assembleLine tc1Params "INIT_ALL" = some [.init 0, .init 1, .init 2, .init 3] ∧
    assembleLine tc1Params "STEP_N 0, 2" = some [.step 0, .step 0] ∧ assembleLine tc1Params "STEP_N 0, 0" = some [] ∧
    assembleLine tc1Params "STEP_N 0, 0x2" = none ∧
    assembleLine tc1Params "SET_LEVEL 0, -0" = some [.setLevel 0 0] ∧ assembleLine tc1Params "SET_LEVEL 0, +1" = none ∧
    assembleLine tc1Params "SET_PITCH 0, -0x1" = none ∧ assembleLine tc1Params "SET_LEVEL -0, 1" = none ∧ assembleLine tc1Params "SET_LEVEL 0, 65536" = none ∧
    assembleLine tc1Params "SET_SHAPE 0, 5" = none ∧ assembleLine tc1Params "SET_PITCH 0" = none := by decide +kernel
/-- Opcode 11, channel 4 of 4, and the lowest reserved bit of every form with one. -/
theorem witness_RefusedWordsRaiseIllegalCommand : live.status.fault = false ∧
    (live.present 0xB000000000).commands = 0xB000000000 :: live.commands ∧
    11 ≤ (0xB000000000 : Command).toNat / 2 ^ 36 ∧
    tc1.nChannels ≤ (0x0400000000 : Command).toNat / 2 ^ 32 % 16 ∧
    ReservedBitSet tc1Params 0x0000000001 ∧ ReservedBitSet tc1Params 0x2000010000 ∧ ReservedBitSet tc1Params 0x3000000008 ∧
    ReservedBitSet tc1Params 0x5000010000 ∧ ReservedBitSet tc1Params 0xA000000010 := by
  and_intros <;> (try simp only [ReservedBitSet]) <;> decide
theorem witness_StepRunsTheDecodedCommand : live.status.fault = false ∧
    (live.present 0x8300000000).commands = 0x8300000000 :: [] ∧ decode tc1Params 0x8300000000 = .ok (.step 3) ∧
    live.commands = [] := by decide
/-- A live and a halted block that answer a command, one of them with data. -/
theorem witness_EveryCommandGetsOneResponse : MachineInv (live.present 0xA000000006) ∧ MachineInv (halted.present 0x8000000000) ∧
    (∃ t, step (live.present 0xA000000006) = .next t) ∧ ∃ t, step (halted.present 0x8000000000) = .next t :=
  ⟨witness_invariant.1, witness_invariant.2.2.1, ⟨_, rfl⟩, ⟨_, rfl⟩⟩
theorem witness_EveryStepKeepsTheInvariant : MachineInv ((withBank busy).present 0x8000000000) ∧
    ∃ t, step ((withBank busy).present 0x8000000000) = .next t := ⟨witness_invariant.2.1, ⟨_, rfl⟩⟩
/-- A live block with an OK response behind it, and the halted block with the fault's. -/
theorem witness_EveryStepKeepsResponsesTrue : StatusInv (live.respond 7).status ∧ ResponsesInv (live.respond 7) ∧
    (∃ t, step ((live.respond 7).present 0x8000000000) = .next t) ∧ StatusInv halted.status ∧ ResponsesInv halted ∧
    ∃ t, step (halted.present 0x8000000000) = .next t := by
  refine ⟨by decide, ?_, ⟨_, rfl⟩, by decide, ?_, ⟨_, rfl⟩⟩ <;> simp [ResponsesInv, halted, live, causeCode]
/-- A run of two commands that leaves a counter and a divider in use. -/
theorem witness_ReachableBanksAreLegal :
    ∃ t, Host.Core.run Sys2Proof.core 2 (powerOnWith tc1 [0x5000000004, 0x8000000000]) = .next t :=
  ⟨_, rfl⟩
theorem witness_InvariantStatesNeverStop : MachineInv (withBank busy) ∧ MachineInv halted :=
  ⟨witness_invariant.2.1, witness_invariant.2.2.1⟩
/-- The last channel; INIT on a used block of the same configuration; and a legal word for the first step. -/
theorem witness_PowerOnIsInitOnEveryChannel : (3 : Channel).toNat < halted.cfg.nChannels ∧ (withBank busy).cfg = halted.cfg ∧
    (withBank busy).status.fault = false ∧ (∃ b', (withBank busy).bank? 3 = some b') ∧
    (∃ t, exec (.init 3) (withBank busy) = .next t) ∧ decode tc1Params 0x8300000000 = .ok (.step 3) :=
  ⟨by decide, rfl, rfl, ⟨_, rfl⟩, ⟨_, rfl⟩, by decide⟩
theorem witness_InitAndResetDiffer : (withBank busy).status.fault = false ∧ (withBank busy).bank? 0 = some busy ∧
    (∃ t, exec (.init 0) (withBank busy) = .next t) ∧ (3 : Channel) ≠ 0 ∧ halted.status.fault = true :=
  ⟨rfl, rfl, ⟨_, rfl⟩, by decide, rfl⟩
/-- One word per clause of R222 at its boundary, and the last word before each boundary. -/
theorem witness_IllegalCommandExactlyWhenListed : MachineInv live ∧ (∃ t, step (live.present 0x3000000005) = .next t) ∧
    IllegalWord tc1Params 0xB000000000 ∧ IllegalWord tc1Params 0x0400000000 ∧ IllegalWord tc1Params 0x4000010000 ∧
    IllegalWord tc1Params 0x3000000005 ∧ IllegalWord tc1Params 0xA00000000A ∧ ¬ IllegalWord tc1Params 0x3300000004 ∧
    ¬ IllegalWord tc1Params 0xA300000009 ∧ ¬ IllegalWord tc1Params 0x430000FFFF ∧ ¬ IllegalWord tc1Params 0x5000000000 := by
  refine ⟨witness_invariant.1, ⟨_, rfl⟩, ?_⟩
  and_intros <;> simp only [IllegalWord, ReservedBitSet] <;> decide
theorem witness_DividerZeroExactlyWhenSetDividerZero : live.status.fault = false ∧ (∃ b, live.bank? 3 = some b) ∧
    MachineInv live ∧ (∃ t, step (live.present 0x5000000000) = .next t) ∧ ∃ t, step (live.present 0x5000000001) = .next t :=
  ⟨rfl, ⟨_, rfl⟩, witness_invariant.1, ⟨_, rfl⟩, ⟨_, rfl⟩⟩
theorem witness_FirstFaultIsTheOneReported : IllegalWord tc1Params 0x5400000000 ∧
    (∃ t, step (live.present 0x5400000000) = .next t) ∧ live.cfg.nChannels ≤ (4 : Channel).toNat ∧ halted.status.fault = true ∧
    ∃ t, step (halted.present 0xB000000000) = .next t := by
  refine ⟨?_, ⟨_, rfl⟩, by decide, rfl, ⟨_, rfl⟩⟩
  simp only [IllegalWord, ReservedBitSet]
  decide
theorem witness_FaultEntryHaltsTheBlock :
    (∃ t, step ((withBank busy).present 0x5000000000) = .next t ∧ t.status.fault = true) ∧ halted.status.fault = true ∧
    (halted.present 0x1000000000).commands = 0x1000000000 :: [] := ⟨⟨_, rfl, rfl⟩, rfl, rfl⟩
theorem witness_OnlyPowerOnClearsAFault : halted.status.fault = true := rfl
theorem witness_FaultsArePrecise : (withBank busy).status.fault = false ∧
    ∃ t, step ({ withBank busy with commands := [0x5000000000, 0x8000000000, 0x1000000000] }) = .next t ∧
      t.status.fault = true := ⟨rfl, ⟨_, rfl, rfl⟩⟩
theorem witness_ReservedOperandsRaiseIllegalCommand : live.status.fault = false ∧ (∃ b, live.bank? 0 = some b) ∧
    5 ≤ (5 : BitVec 3).toNat ∧ 10 ≤ (10 : BitVec 4).toNat ∧ live.cfg.nChannels ≤ (Instr.nop 4).channel.toNat :=
  ⟨rfl, ⟨_, rfl⟩, by decide, by decide, by decide⟩
theorem witness_EveryCommandFrame : (∃ t, exec (.step 0) (withBank busy) = .next t) ∧ (3 : Channel) ≠ 0 :=
  ⟨⟨_, rfl⟩, by decide⟩
theorem witness_OnlyListedCommandsWriteARegister : (∃ t, exec (.step 0) (withBank busy) = .next t) ∧
    (withBank busy).bank? 0 = some busy ∧ writes .step .level = false ∧ (∃ b, (withBank busy).bank? 3 = some b) :=
  ⟨⟨_, rfl⟩, rfl, rfl, ⟨_, rfl⟩⟩
theorem witness_CommandsOfDifferentChannelsCommute : (Instr.step 0).channel ≠ (Instr.readReg 3 9).channel ∧
    ∃ a ab, exec (.step 0) (withBank busy) = .next a ∧ a.status.fault = false ∧ exec (.readReg 3 9) a = .next ab ∧
      ab.status.fault = false := ⟨by decide, _, _, rfl, rfl, rfl, rfl⟩

theorem witness_NopAnswersAndChangesNothing : live.status.fault = false ∧ ∃ b, live.bank? 3 = some b := ⟨rfl, _, rfl⟩
theorem witness_InitWritesEveryRegister : (withBank busy).status.fault = false ∧ (withBank busy).bank? 0 = some busy :=
  ⟨rfl, rfl⟩
theorem witness_SettersWriteOneRegister : (withBank busy).status.fault = false ∧ (withBank busy).bank? 0 = some busy ∧
    (0 : BitVec 3).toNat < 5 ∧ (4 : BitVec 3).toNat < 5 := ⟨rfl, rfl, by decide, by decide⟩
theorem witness_ReadRegAnswersTheRegister : (withBank busy).status.fault = false ∧ (withBank busy).bank? 0 = some busy :=
  ⟨rfl, rfl⟩
theorem witness_SetPitchLoadsPitchAndIncrement : (withBank busy).status.fault = false ∧ (withBank busy).bank? 0 = some busy :=
  ⟨rfl, rfl⟩
theorem witness_OctaveFoldIsFloorDivision : tc1.kOctave = 1536 ∧ octaveShift tc1Params 0x8000 = -22 ∧
    octaveShift tc1Params 32767 = 21 := by decide
theorem witness_OctaveShiftCorners : shiftOctaves (0x80000001 : U32).toNat 1 = 2 ∧ shiftOctaves (0x80000001 : U32).toNat 32 = 0 ∧
    shiftOctaves (0x80000001 : U32).toNat (-1) = 0x40000000 ∧ shiftOctaves (0x80000001 : U32).toNat (-32) = 0 := by decide
/-- Pitches one octave apart for each clause: `s` at 0 and 20, at -1, at -2 and -22. -/
theorem witness_OctaveLaw : (1536 : S16).toInt = (0 : S16).toInt + tc1.kOctave ∧ octaveShift tc1Params 0 = 0 ∧
    (32767 : S16).toInt = (31231 : S16).toInt + tc1.kOctave ∧ octaveShift tc1Params 31231 = 20 ∧
    (1535 : S16).toInt = (-1 : S16).toInt + tc1.kOctave ∧ octaveShift tc1Params (-1) = -1 ∧
    (-1 : S16).toInt = (-1537 : S16).toInt + tc1.kOctave ∧ octaveShift tc1Params (-1537) = -2 ∧
    (-31232 : S16).toInt = (-32768 : S16).toInt + tc1.kOctave ∧ octaveShift tc1Params (-32768) = -22 := by decide
/-- A STEP whose add reaches exactly `2^32` (a wrap), and one that stays one below it. -/
theorem witness_StepAdvancesOneTick : (withBank busy).status.fault = false ∧ (withBank busy).bank? 0 = some busy ∧
    BankInv tc1Params busy ∧ busy.phase.toNat + busy.phaseInc.toNat = 2 ^ 32 ∧
    BankInv tc1Params { busy with phase := 0x7FFFFFFF } := ⟨rfl, rfl, by decide, by decide, by decide⟩
theorem witness_WrapIsTheCarryOut : ({ busy with phaseInc := 0 } : Bank).phaseInc = 0 := rfl
/-- A bank in use whose divided phase is its own value and whose next STEP returns the counter; one with divider 1; and a command that
may stand between two STEPs. -/
theorem witness_DividedPhaseConsequences :
    let b : Bank := { busy with dividedPhase := 0xD5555554 }
    BankInv tc1Params b ∧ dividedFresh b ∧ 2 ^ 32 ≤ b.phase.toNat + b.phaseInc.toNat ∧ b.divCounter.toNat = b.divider.toNat - 1 ∧
    (∃ t, exec (.step 0) (withBank b) = .next t ∧ (t.bank? 0).map (·.dividedPhase) = some 0) ∧
    BankInv tc1Params (initBank tc1Params) ∧ (initBank tc1Params).divider = 1 ∧
    (∃ t, exec (.setPitch 0 7) (withBank b) = .next t) ∧ (Instr.setPitch 0 7).opcode ≠ .setDivider := by
  refine ⟨by decide, ?_, by decide, by decide, ⟨_, rfl, by decide⟩, by decide, rfl, ⟨_, rfl⟩, by decide⟩
  unfold dividedFresh
  decide
theorem witness_TicksAccumulateAndCountWraps : MachineInv (withBank busy) ∧ (withBank busy).status.fault = false ∧
    (withBank busy).bank? 0 = some busy := ⟨witness_invariant.2.1, rfl, rfl⟩
/-- Divider 1 about to wrap, with other commands around the STEP: as many wraps as the divider. -/
def wrapBank : Bank := { initBank tc1Params with phase := 0x80000000, dividedPhase := 0x80000000, phaseInc := 0x80000000 }

/-- A run with a setter and another channel's command around the STEP, which holds the divider and wraps once; one wrap of three at
divider 3; and six ticks at half a cycle each, which are three wraps and one divided cycle. -/
theorem witness_DividerPeriodicity :
    MachineInv (withBank wrapBank) ∧ (withBank wrapBank).bank? 0 = some wrapBank ∧ dividedFresh wrapBank ∧
    dividerHeld 0 wrapBank.divider [.setLevel 0 7, .step 0, .nop 3] (withBank wrapBank) ∧
    wraps 0 [.setLevel 0 7, .step 0, .nop 3] (withBank wrapBank) = wrapBank.divider.toNat ∧
    MachineInv (withBank busy) ∧ dividerHeld 0 busy.divider [.step 0] (withBank busy) ∧
    wraps 0 [.step 0] (withBank busy) = 1 ∧
    6 * ({ busy with phase := 0, divCounter := 0 } : Bank).phaseInc.toNat = busy.divider.toNat * 2 ^ 32 := by
  refine ⟨by decide, rfl, by unfold dividedFresh; decide, ?_, by decide, witness_invariant.2.1, ?_, by decide, by decide⟩
  · intro t ht
    cases ht
    refine ⟨fun b hb => by cases hb; rfl, fun t ht => ?_⟩
    cases ht
    refine ⟨fun b hb => by cases hb; rfl, fun t ht => ?_⟩
    cases ht
    exact ⟨fun b hb => by cases hb; rfl, trivial⟩
  · intro t ht
    cases ht
    exact ⟨fun b hb => by cases hb; rfl, trivial⟩
/-- The smallest and the largest legal value, and the held one. -/
theorem witness_SetDividerReducesTheCounter : (withBank busy).bank? 0 = some busy ∧ BankInv tc1Params busy ∧
    1 ≤ (1 : U32).toNat ∧ (65535 : U32).toNat < 2 ^ tc1.dividerBits ∧ busy.divider = 3 := ⟨rfl, by decide, by decide, by decide, rfl⟩
theorem witness_DividedPhaseStaysUntilTheNextStep : (∃ t, exec (.setDivider 0 7) (withBank busy) = .next t) ∧
    (∃ t, exec (.setPitch 0 7) (withBank busy) = .next t) ∧ (withBank busy).bank? 0 = some busy :=
  ⟨⟨_, rfl⟩, ⟨_, rfl⟩, rfl⟩
theorem witness_SampleAnswersTheSampleValue : live.status.fault = false ∧ live.bank? 3 = some (initBank tc1Params) := ⟨rfl, rfl⟩
/-- Two different banks with one effective phase. -/
theorem witness_SampleValueReadsOnlyItsInputs :
    let b : Bank := { initBank tc1Params with initialPhase := 0xC0000000, dividedPhase := 0x80000000 }
    let b' : Bank := { initBank tc1Params with initialPhase := 0x40000000, pitch := 7, phase := 9 }
    b.shape = b'.shape ∧ (b.initialPhase.toNat + b.dividedPhase.toNat) % 2 ^ 32 =
      (b'.initialPhase.toNat + b'.dividedPhase.toNat) % 2 ^ 32 ∧ b.dividedPitch = b'.dividedPitch ∧ b.level = b'.level := by decide
theorem witness_ForceSawOverridesTheShape : live.bank? 0 = some (initBank tc1Params) ∧ live.cfg.forceSaw = false ∧
    cornerLive.bank? 15 = some (initBank cornerParams) ∧ cornerLive.status.fault = false ∧ cornerLive.cfg.forceSaw = true ∧
    (4 : BitVec 3).toNat < 5 := ⟨rfl, rfl, rfl, rfl, rfl, by decide⟩
theorem witness_SineLookupReadsTheTopBits : (0x40000000 : U32).extractLsb' 6 26 = (0x4000003F : U32).extractLsb' 6 26 ∧
    tc1.bandBits = 10 := by decide
/-- The smallest and the default width of a band table; a fraction of 0 at the last entry. -/
theorem witness_LookupLiesBetweenItsEntries : Table.tri100 ≠ .lutInc ∧ (if Table.tri100 = .sine then 10 = 10 else 10 = tc1.bandBits) ∧
    (if Table.tri100 = .sine then 1 = 10 else 1 = corner.bandBits) ∧ (0xFFC00000 : U32).toNat / 2 ^ (16 - 10) % 65536 = 0 ∧
    (0xFFC00000 : U32).toNat / 2 ^ (32 - 10) + 1 = 2 ^ 10 := by decide
theorem witness_RomReadsStayInsideTheirTables : tableEntry tc1Rom .lutInc 12 = some 0x02000000 ∧
    tableEntry tc1Rom .tri100 1023 = some 32704 ∧ tableEntries tc1Rom .tri100 = 1024 ∧ Table.tri100 ≠ .lutInc := by decide +kernel
theorem witness_ScaleRange : scale (-32768) 65535 = -32768 ∧ scale 32767 65535 = 32766 ∧ scale (-1) 1 = -1 ∧ scale 1 65535 = 0 ∧
    scale 0 65535 = 0 ∧ scale 32767 0 = 0 := by decide
theorem witness_CrossfadeWeightAndMix : weight (-1999) (-2000) 0 = 32 ∧ weight 0 (-2000) 0 = 65535 ∧ weight 1 0 2000 = 32 ∧
    mix 0 1000 65535 = 999 ∧ mix 1000 0 65535 = 0 ∧ mix (-32768) 32767 0 = -32768 := by decide
/-- Both sides of each of the three boundaries of TC1. -/
theorem witness_BandSelectionRegions : tc1.p100.toInt < (2001 : S16).toInt ∧ (2000 : S16).toInt ≤ tc1.p100.toInt ∧
    tc1.p10.toInt < (1 : S16).toInt ∧ (0 : S16).toInt ≤ tc1.p10.toInt ∧ tc1.p1.toInt < (-1999 : S16).toInt ∧
    (-2000 : S16).toInt ≤ tc1.p1.toInt := by decide
theorem witness_TriangleAndTrapezoidReferenceShapes : tc1Params.triRef = .default158 ∧ triRef tc1Params 0x7FFFFFFF = 32767 ∧
    triRef tc1Params 0x80000000 = 32767 ∧ triRef tc1Params 0xFFFFFFFF = -32768 ∧ trapRef tc1Params 0x20000000 = -32768 := by decide
theorem witness_RampReferenceShape : (0xFFA5FFFF : U32).toNat < 0xFFA60000 ∧ 0xFFA60000 ≤ (0xFFA60000 : U32).toNat ∧
    tc1Params.rampRefConv = .wrap ∧ cornerParams.rampRefConv = .saturate ∧ tc1Params.rampRefOffset = -32678 ∧
    cornerParams.rampRefOffset = -32678 := by decide
theorem witness_LevelZeroIsSilent : ({ busy with level := 0 } : Bank).level = 0 := rfl
/-- The value whose negation is itself. -/
theorem witness_SawNegatesRamp : tc1.forceSaw = false ∧ tc1.rampRefConv = .wrap ∧ tc1.rampRefOffset = -32678 ∧
    (0xFFA60000 : U32).toNat / 2 ^ 16 = 65446 ∧
    sampleValue tc1Params { initBank tc1Params with shape := .ramp, initialPhase := 0xFFA60000, dividedPitch := -5000 } =
      -32768 := by decide
theorem witness_SampleRange : (initBank tc1Params).level = 65535 ∧ selectedShape tc1Params (initBank tc1Params) ≠ .saw := by decide
/-- The three boundaries and the pitch after each. -/
theorem witness_CrossfadeContinuity : (-1999 : S16).toInt = (-2000 : S16).toInt + 1 ∧ tc1.p1 = -2000 ∧
    (1 : S16).toInt = (0 : S16).toInt + 1 ∧ tc1.p10 = 0 ∧ (2001 : S16).toInt = (2000 : S16).toInt + 1 ∧ tc1.p100 = 2000 := by decide
theorem witness_ShapeValues : tc1.forceSaw = false ∧ (initBank tc1Params).shape = .triangle ∧
    ∀ sh : Shape, ({ initBank tc1Params with shape := sh } : Bank).shape = sh := ⟨rfl, rfl, fun _ => rfl⟩

end Sys2Proof.Tests
end

/-! PROOFS. The registers of 10_state.md: what a command may change in its channel's bank (R43, R51) and the invariants it
keeps (R44). -/

namespace Sys2Proof.Machine

open Safety

/-! ### The effect of a command on its bank -/

/-- A SET_SHAPE that raises no fault writes the shape its code stands for (R195). -/
theorem bankEffect_setShape_ok {p : Params} {ch : Channel} {code : BitVec 3} {b b' : Bank} {d : U32} :
    bankEffect p (.setShape ch code) b = .ok (b', d) ↔
      ∃ sh, shapeOfCode code = some sh ∧ b' = { b with shape := sh } ∧ d = 0 := by
  cases hs : shapeOfCode code <;> simp [bankEffect, hs, eq_comm (a := b'), eq_comm (a := d)]

/-- A SET_DIVIDER that raises no fault has a value of `DIVIDER_BITS` bits other than 0, and loads it (R138, R139). -/
theorem bankEffect_setDivider_ok {p : Params} {ch : Channel} {v : U32} {b b' : Bank} {d : U32} :
    bankEffect p (.setDivider ch v) b = .ok (b', d) ↔
      v.toNat < 2 ^ p.dividerBits ∧ v ≠ 0 ∧ b' = loadDivider b v ∧ d = 0 := by
  have hclear : reservedClear p .immdiv v = true ↔ v.toNat < 2 ^ p.dividerBits := reservedClear_iff
  simp only [bankEffect, hclear]
  split
  · split <;> simp_all [eq_comm (a := b'), eq_comm (a := d)]
  · simp_all

/-- A READ_REG that raises no fault answers the register its number names and leaves the bank (R199). -/
theorem bankEffect_readReg_ok {p : Params} {ch : Channel} {n : BitVec 4} {b b' : Bank} {d : U32} :
    bankEffect p (.readReg ch n) b = .ok (b', d) ↔
      ∃ r, regOfNumber n = some r ∧ b' = b ∧ d = readRegister b r := by
  cases hr : regOfNumber n <;> simp [bankEffect, hr, eq_comm (a := b'), eq_comm (a := d)]

/-- The Writers column of R43 on one bank: a register that the column does not list for a command keeps its value. -/
theorem bankEffect_readRegister_of_not_writes {p : Params} {i : Instr} {b b' : Bank} {d : U32} {r : RegName}
    (he : bankEffect p i b = .ok (b', d)) (hw : writes i.opcode r = false) : readRegister b' r = readRegister b r := by
  cases i with
  | nop ch => cases he; rfl
  | sample ch => cases he; rfl
  | readReg ch n =>
    obtain ⟨_, -, rfl, -⟩ := bankEffect_readReg_ok.mp he
    rfl
  | init ch => exact absurd hw (by simp [Instr.opcode, writes])
  | setPitch ch pitch => cases he; cases r <;> simp_all [Instr.opcode, writes, readRegister, loadPitch]
  | setShape ch code =>
    obtain ⟨sh, -, rfl, -⟩ := bankEffect_setShape_ok.mp he
    cases r <;> simp_all [Instr.opcode, writes, readRegister]
  | setLevel ch v => cases he; cases r <;> simp_all [Instr.opcode, writes, readRegister]
  | setDivider ch v =>
    obtain ⟨-, -, rfl, -⟩ := bankEffect_setDivider_ok.mp he
    cases r <;> simp_all [Instr.opcode, writes, readRegister, loadDivider]
  | setInitialPhase ch v => cases he; cases r <;> simp_all [Instr.opcode, writes, readRegister]
  | setDividedPitch ch v => cases he; cases r <;> simp_all [Instr.opcode, writes, readRegister]
  | step ch => cases he; cases r <;> simp_all [Instr.opcode, writes, readRegister, stepBank]

/-! ### The banks after an effect -/

/-- A fault writes no bank (R224). -/
@[simp] theorem State.bank?_apply_error (s : State) (ch c : Channel) (f : Cause) :
    (s.apply ch (.error f)).bank? c = s.bank? c := rfl

/-- The channel that had an effect holds the effect's bank. -/
theorem State.bank?_apply_ok {s : State} {ch : Channel} {b b' : Bank} {d : U32} (hb : s.bank? ch = some b) :
    (s.apply ch (.ok (b', d))).bank? ch = some b' := State.bank?_setBank_self hb

/-- An effect on one channel leaves the bank of every other (R71). -/
theorem State.bank?_apply_other {s : State} {ch c : Channel} (h : c ≠ ch) (e : Except Cause (Bank × U32)) :
    (s.apply ch e).bank? c = s.bank? c := by
  cases e with
  | error f => rfl
  | ok bd => exact (State.bank?_respond _ _ c).trans (State.bank?_setBank_other h)

/-- Settles O25, by the ways `exec` answers a next state and the Writers column on one bank. -/
theorem onlyListedCommandsWriteARegister : Obligations.OnlyListedCommandsWriteARegister := by
  intro i s t c b h hb
  obtain ⟨-, rfl⟩ | ⟨-, -, rfl⟩ | ⟨-, a, ha, -, rfl⟩ := exec_next_cases h
  · exact ⟨b, hb, fun _ _ => rfl⟩
  · exact ⟨b, hb, fun _ _ => rfl⟩
  · by_cases hc : c = i.channel
    · obtain rfl : a = b := Option.some.inj (ha.symm.trans (hc ▸ hb))
      subst hc
      cases he : bankEffect s.cfg.toParams i a with
      | error f => exact ⟨a, hb, fun _ _ => rfl⟩
      | ok bd =>
        obtain ⟨b', d⟩ := bd
        refine ⟨b', State.bank?_apply_ok hb, fun r hr => ?_⟩
        exact bankEffect_readRegister_of_not_writes he (hr.resolve_right fun hne => hne rfl)
    · exact ⟨b, (State.bank?_apply_other hc _).trans hb, fun _ _ => rfl⟩

/-! ### The invariant of a bank -/

/-- INIT's bank meets the invariant: its divider is 1, and `DIVIDER_BITS >= 1` (R13, R191). -/
theorem initBank_bankInv {p : Params} (hp : 1 ≤ p.dividerBits) : BankInv p (initBank p) :=
  ⟨le_rfl, Nat.one_pos, Nat.one_lt_two_pow (Nat.one_le_iff_ne_zero.mp hp)⟩

/-- The wrap check keeps the counter below the divider (R133). -/
theorem newCounter_lt_divider {b : Bank} (hk : b.divCounter.toNat < b.divider.toNat) : newCounter b < b.divider.toNat := by
  unfold newCounter
  split
  · exact Nat.mod_lt _ (Nat.zero_lt_of_lt hk)
  · exact hk

/-- One tick keeps the invariant of its bank (R132, R133). -/
theorem stepBank_bankInv {p : Params} {b : Bank} (h : BankInv p b) : BankInv p (stepBank b) := by
  obtain ⟨hd, hk, hfit⟩ := h
  have hk' : newCounter b < b.divider.toNat := newCounter_lt_divider hk
  have hheld : (stepBank b).divCounter.toNat = newCounter b :=
    Nat.mod_eq_of_lt (hk'.trans b.divider.isLt)
  exact ⟨hd, hheld ▸ hk', hfit⟩

/-- Loading a divider other than 0 of `DIVIDER_BITS` bits gives a bank that meets the invariant, since the counter is reduced
modulo the new divider (R138). -/
theorem loadDivider_bankInv {p : Params} {v : U32} (b : Bank) (hfit : v.toNat < 2 ^ p.dividerBits) (hv : v ≠ 0) :
    BankInv p (loadDivider b v) := by
  have hpos : 0 < v.toNat := Nat.pos_of_ne_zero fun h => hv (BitVec.eq_of_toNat_eq h)
  have hmod : (loadDivider b v).divCounter.toNat = b.divCounter.toNat % v.toNat := BitVec.toNat_umod
  exact ⟨hpos, hmod ▸ Nat.mod_lt _ hpos, hfit⟩

/-- Every command that raises no fault keeps the invariant of its channel's bank (R44). -/
theorem bankEffect_bankInv {p : Params} {i : Instr} {b b' : Bank} {d : U32} (hp : 1 ≤ p.dividerBits) (h : BankInv p b)
    (he : bankEffect p i b = .ok (b', d)) : BankInv p b' := by
  cases i with
  | init ch => cases he; exact initBank_bankInv hp
  | step ch => cases he; exact stepBank_bankInv h
  | setDivider ch v =>
    obtain ⟨hfit, hv, rfl, -⟩ := bankEffect_setDivider_ok.mp he
    exact loadDivider_bankInv b hfit hv
  | setShape ch code =>
    obtain ⟨sh, -, rfl, -⟩ := bankEffect_setShape_ok.mp he
    exact h
  | readReg ch n =>
    obtain ⟨_, -, rfl, -⟩ := bankEffect_readReg_ok.mp he
    exact h
  | nop ch => cases he; exact h
  | sample ch => cases he; exact h
  | setPitch ch pitch => cases he; exact h
  | setLevel ch v => cases he; exact h
  | setInitialPhase ch v => cases he; exact h
  | setDividedPitch ch v => cases he; exact h

/-! ### The invariant of the machine -/

/-- Fault entry leaves a legal status (R45, R221) and every bank. -/
theorem State.raise_machineInv {s : State} (h : MachineInv s) (f : Cause) : MachineInv (s.raise f) := by
  obtain ⟨hlen, hbanks, -⟩ := h
  refine ⟨hlen, hbanks, .inr ⟨rfl, ?_⟩⟩
  cases f with
  | illegalCommand => exact .inl rfl
  | dividerZero => exact .inr rfl

/-- The effect of a command on a channel's bank keeps the invariant of the machine. -/
theorem State.apply_bankEffect_machineInv {s : State} {ch : Channel} {i : Instr} {b : Bank} (h : MachineInv s)
    (hb : s.bank? ch = some b) : MachineInv (s.apply ch (bankEffect s.cfg.toParams i b)) := by
  cases he : bankEffect s.cfg.toParams i b with
  | error f => exact State.raise_machineInv h f
  | ok bd =>
    obtain ⟨b', d⟩ := bd
    obtain ⟨hlen, hbanks, hstatus⟩ := h
    obtain ⟨-, -, -, -, -, -, -, -, -, hbits, -⟩ := s.cfg.wellFormed
    have hb' : BankInv s.cfg.toParams b' := bankEffect_bankInv hbits (hbanks b (State.mem_of_bank? hb)) he
    refine ⟨List.length_set.trans hlen, fun x hx => ?_, hstatus⟩
    obtain hx | rfl := List.mem_or_eq_of_mem_set hx
    · exact hbanks x hx
    · exact hb'

/-- Under the invariant every command answers a next state that keeps it: no divider is 0, so no STEP stops (R36, R44). -/
theorem exec_machineInv {s : State} (i : Instr) (h : MachineInv s) : ∃ t, exec i s = .next t ∧ MachineInv t := by
  cases hf : s.status.fault with
  | true => exact ⟨_, exec_halted hf, h⟩
  | false =>
    cases hb : s.bank? i.channel with
    | none => exact ⟨_, exec_missing hf hb, State.raise_machineInv h _⟩
    | some b =>
      have ⟨_, hbanks, _⟩ := h
      obtain ⟨hd, -, -⟩ := hbanks b (State.mem_of_bank? hb)
      have hne : b.divider ≠ 0 := fun h0 => absurd hd (by simp [h0])
      exact ⟨_, exec_live hf hb fun _ => hne, State.apply_bankEffect_machineInv h hb⟩

/-- Under the invariant every step answers a next state that keeps it (R44, R45). -/
theorem step_machineInv {s : State} (h : MachineInv s) : ∃ t, step s = .next t ∧ MachineInv t := by
  cases hc : s.commands with
  | nil => exact ⟨s, step_nil hc, h⟩
  | cons w rest =>
    have htaken : MachineInv { s with commands := rest } := h
    obtain ⟨-, hs⟩ | ⟨-, -, hs⟩ | ⟨-, i, -, hs⟩ := step_cons hc
    · exact ⟨_, hs, htaken⟩
    · exact ⟨_, hs, State.raise_machineInv htaken _⟩
    · exact hs ▸ exec_machineInv i htaken

/-- A block after power-on meets the invariant, whatever words the host is going to present (R250, R251). -/
theorem powerOnWith_machineInv (c : Config) (ws : List Command) : MachineInv (powerOnWith c ws) := by
  obtain ⟨-, -, -, -, -, -, -, -, -, hbits, -⟩ := c.wellFormed
  refine ⟨List.length_replicate, fun b hb => ?_, .inl ⟨rfl, rfl⟩⟩
  obtain rfl : b = initBank c.toParams := List.eq_of_mem_replicate hb
  exact initBank_bankInv hbits

/-- Every state a run from power-on reaches meets the invariant. -/
theorem run_powerOnWith_machineInv {c : Config} {ws : List Command} {k : Nat} {t : State}
    (h : Host.Core.run Sys2Proof.core k (powerOnWith c ws) = .next t) : MachineInv t := by
  obtain ⟨u, hu, hinv⟩ := run_induction (fun _ => step_machineInv) k (powerOnWith_machineInv c ws)
  obtain rfl : u = t := Host.Outcome.next.inj (hu.symm.trans h)
  exact hinv

/-- No shape has a reserved code (R42, R90). -/
theorem shapeCode_le_four (sh : Shape) : (shapeCode sh).toNat ≤ 4 := by cases sh <;> decide

/-- Settles O12, by the invariant of the machine along every run from power-on. -/
theorem reachableBanksAreLegal : Obligations.ReachableBanksAreLegal := by
  intro c ws k t h b hb
  obtain ⟨-, hbanks, -⟩ := run_powerOnWith_machineInv h
  obtain ⟨hd, hk, -⟩ := hbanks b hb
  exact ⟨hd, hk, shapeCode_le_four b.shape⟩

end Sys2Proof.Machine

/-! PROOFS. The channels of 20_memory.md: a command reads and writes its own channel's bank alone, so commands of different
channels commute (R71, R72). -/

namespace Sys2Proof.Machine

open Safety

/-- A command completes without a fault exactly on a live block whose channel's bank gives the command an effect; the effect is
that bank written and one response. -/
theorem exec_faultless_iff {i : Instr} {s t : State} :
    exec i s = .next t ∧ t.status.fault = false ↔
      s.status.fault = false ∧ ∃ b b' d, s.bank? i.channel = some b ∧ (i.opcode = .step → b.divider ≠ 0) ∧
        bankEffect s.cfg.toParams i b = .ok (b', d) ∧ t = (s.setBank i.channel b').respond d := by
  constructor
  · rintro ⟨h, ht⟩
    obtain ⟨hs, rfl⟩ | ⟨-, -, rfl⟩ | ⟨hs, b, hb, hd, rfl⟩ := exec_next_cases h
    · exact absurd (hs.symm.trans ht) (by decide)
    · exact absurd ht (by simp)
    · cases he : bankEffect s.cfg.toParams i b with
      | error f => exact absurd ht (by simp [he, State.apply])
      | ok bd =>
        obtain ⟨b', d⟩ := bd
        exact ⟨hs, b, b', d, hb, hd, he, rfl⟩
  · rintro ⟨hs, b, b', d, hb, hd, he, rfl⟩
    exact ⟨by rw [exec_live hs hb hd, he, State.apply], hs⟩

/-- An effect on one channel leaves what every other channel reads (R71). -/
theorem State.bank?_setBank_respond_other {s : State} {ch c : Channel} {b : Bank} {d : U32} (h : c ≠ ch) :
    ((s.setBank ch b).respond d).bank? c = s.bank? c :=
  (State.bank?_respond _ d c).trans (State.bank?_setBank_other h)

/-- The banks of two different channels can be written in either order. -/
theorem State.setBank_comm {s : State} {ch c : Channel} (b b' : Bank) (h : ch ≠ c) :
    (s.setBank ch b).setBank c b' = (s.setBank c b').setBank ch b := by
  have hne : ch.toNat ≠ c.toNat := fun e => h (BitVec.eq_of_toNat_eq e)
  simp only [State.setBank, List.set_comm b b' hne]

/-- Settles O26: each command's effect is a function of the configuration and its own bank, which the other command leaves, so it
is the same in both orders; the two writes go to different banks. -/
theorem commandsOfDifferentChannelsCommute : Obligations.CommandsOfDifferentChannelsCommute := by
  intro i j s a ab hij hs hi ha hj hab
  obtain ⟨-, bi, bi', di, hbi, hdi, hei, rfl⟩ := exec_faultless_iff.mp ⟨hi, ha⟩
  obtain ⟨-, bj, bj', dj, hbj, hdj, hej, rfl⟩ := exec_faultless_iff.mp ⟨hj, hab⟩
  rw [State.bank?_setBank_respond_other hij.symm] at hbj
  have hjFirst := exec_faultless_iff.mpr ⟨hs, bj, bj', dj, hbj, hdj, hej, rfl⟩
  have hbi' := (State.bank?_setBank_respond_other (b := bj') (d := dj) hij).trans hbi
  have hiSecond := exec_faultless_iff.mpr ⟨hjFirst.2, bi, bi', di, hbi', hdi, hei, rfl⟩
  have hbanks := congrArg State.banks (State.setBank_comm (s := s) bj' bi' hij.symm)
  exact ⟨_, _, responseWord 0 di, responseWord 0 dj, hjFirst.1, hiSecond.1, hbanks, rfl, rfl, rfl,
    List.append_assoc .., List.append_assoc ..⟩

end Sys2Proof.Machine

/-! PROOFS. The encoding of 30_encoding.md: the words the decoder refuses, on the numbers of the word (R82, R84, R87, R88), and
the table of examples (R94). -/

namespace Sys2Proof

open Machine Safety

/-! ### The words the decoder refuses -/

/-- `OP` is the top of the word, so nothing has to be cut off above it (R81). -/
theorem toNat_commandOp_eq_div (w : Command) : (commandOp w).toNat = w.toNat / 2 ^ 36 := by
  have := w.isLt
  rw [toNat_commandOp]
  omega

/-- `DATA` is the bottom of the word, so nothing has to be cut off below it (R81). -/
theorem toNat_commandData_eq_mod (w : Command) : (commandData w).toNat = w.toNat % 2 ^ 32 := by
  rw [toNat_commandData, pow_zero, Nat.div_one]

/-- `OP` is reserved exactly from 11 on (R87). -/
theorem opcodeOfBits_eq_none_iff {op : BitVec 4} : opcodeOfBits op = none ↔ 11 ≤ op.toNat := by
  revert op
  decide

/-- A reserved bit of `DATA` is set exactly when `DATA` reaches the bound of the opcode's operand form (R84, R88). -/
theorem reservedBitSet_iff {p : Params} {w : Command} {o : Opcode} (ho : opcodeOfBits (commandOp w) = some o) :
    ReservedBitSet p w ↔ 2 ^ formWidth p (opcodeForm o) ≤ (commandData w).toNat := by
  have hop : w.toNat / 2 ^ 36 = (opcodeBits o).toNat := by
    rw [opcodeBits_of_opcodeOfBits ho, toNat_commandOp_eq_div]
  simp only [ReservedBitSet, hop, ← toNat_commandData_eq_mod]
  cases o with
  | setInitialPhase => simpa [opcodeBits, opcodeForm, formWidth] using (commandData w).isLt
  | nop | init | step | sample => simp [opcodeBits, opcodeForm, formWidth, Nat.one_le_iff_ne_zero]
  | setPitch | setShape | setLevel | setDivider | setDividedPitch | readReg => simp [opcodeBits, opcodeForm, formWidth]

/-- The decoder answers a command exactly for the words with an opcode, an existing channel and no reserved bit (R82, R87, R88). -/
theorem exists_decode_ok_iff {p : Params} {w : Command} :
    (∃ i, decode p w = .ok i) ↔
      w.toNat / 2 ^ 36 < 11 ∧ w.toNat / 2 ^ 32 % 16 < p.nChannels ∧ ¬ ReservedBitSet p w := by
  have hch : (commandCh w).toNat = w.toNat / 2 ^ 32 % 16 := toNat_commandCh w
  rw [← toNat_commandOp_eq_div, ← hch, ← not_le, ← opcodeOfBits_eq_none_iff]
  cases ho : opcodeOfBits (commandOp w) with
  | none => simp [decode_ok_iff, ho]
  | some o => simp [decode_ok_iff, ho, reservedBitSet_iff ho]

/-- The decoder refuses exactly the words with a reserved opcode, a missing channel or a reserved bit (R82, R87, R88). -/
theorem exists_decode_error_iff {p : Params} {w : Command} :
    (∃ e, decode p w = .error e) ↔
      11 ≤ w.toNat / 2 ^ 36 ∨ p.nChannels ≤ w.toNat / 2 ^ 32 % 16 ∨ ReservedBitSet p w := by
  have hor : (∃ e, decode p w = .error e) ↔ ¬ ∃ i, decode p w = .ok i := by cases decode p w <;> simp
  rw [hor, exists_decode_ok_iff, not_and_or, not_and_or, not_lt, not_lt, not_not]

end Sys2Proof

namespace Sys2Proof.Machine

open Safety

/-! ### The step on a refused word -/

/-- A live block raises ILLEGAL_COMMAND for a word that the decoder refuses, and keeps everything else (R222, R224). -/
theorem step_of_decode_error {s : State} {w : Command} {rest : List Command} {e : DecodeError}
    (hs : s.status.fault = false) (hc : s.commands = w :: rest) (he : decode s.cfg.toParams w = .error e) :
    step s = .next (afterFault { s with commands := rest } 1) := by
  obtain ⟨hf, -⟩ | ⟨-, -, hstep⟩ | ⟨-, i, hi, -⟩ := step_cons hc
  · exact absurd (hs.symm.trans hf) (by decide)
  · exact hstep
  · exact absurd (he.symm.trans hi) (by simp)

/-- Settles O5: the words listed are those the decoder refuses, and a refused word raises ILLEGAL_COMMAND. -/
theorem refusedWordsRaiseIllegalCommand : Obligations.RefusedWordsRaiseIllegalCommand := by
  intro s w rest hs hc hw
  obtain ⟨e, he⟩ := exists_decode_error_iff.mpr hw
  exact step_of_decode_error hs hc he

/-! ### The table of examples -/

/-- Settles O3, by the command each row stands for: the assembler, the encoder and the decoder read only the parameters of the
reset configuration that have a default, so all three evaluate. -/
theorem encodingExampleWordsAgree : Obligations.EncodingExampleWordsAgree := by
  simp only [Obligations.EncodingExampleWordsAgree, List.forall_mem_cons]
  refine ⟨⟨.nop 0, ?_⟩, ⟨.init 2, ?_⟩, ⟨.setPitch 0 (-1536), ?_⟩, ⟨.setPitch 1 10752, ?_⟩, ⟨.setShape 3 (shapeCode .sine), ?_⟩,
    ⟨.setLevel 0 65535, ?_⟩, ⟨.setDivider 0 4, ?_⟩, ⟨.setInitialPhase 1 0x40000000, ?_⟩, ⟨.setDividedPitch 0 (-1), ?_⟩,
    ⟨.step 3, ?_⟩, ⟨.sample 0, ?_⟩, ⟨.readReg 0 (regNumber .divCounter), ?_⟩, List.forall_mem_nil _⟩
  all_goals exact ⟨rfl, rfl, rfl⟩

end Sys2Proof.Machine

/-! PROOFS. The pitch converter of 40_pitch_converter.md: the octave fold (R111, R112), the interpolated base increment (R113,
R114), the octave shift (R115, R116), the octave law (R120), and SET_PITCH (R118). -/

namespace Sys2Proof.Machine

/-! ### The octave fold -/

/-- The folded pitch is the remainder of the floor division that gives the octave count (R111). -/
theorem foldedPitch_eq_emod (p : Params) (pitch : S16) : foldedPitch p pitch = pitch.toInt % (p.kOctave : Int) := by
  rw [foldedPitch, octaveShift, Int.emod_def, mul_comm]

/-- `K_OCTAVE` can be divided by (R13). -/
theorem kOctave_pos (c : Config) : (0 : Int) < c.kOctave :=
  Int.natCast_pos.mpr c.wellFormed.1

/-- The octave count lies between those of the lowest and the highest pitch (R112). -/
theorem octaveShift_range (c : Config) (pitch : S16) :
    (-32768) / (c.kOctave : Int) ≤ octaveShift c.toParams pitch ∧
      octaveShift c.toParams pitch ≤ 32767 / (c.kOctave : Int) := by
  have hlow : -32768 ≤ pitch.toInt := BitVec.le_toInt pitch
  have hhigh : pitch.toInt ≤ 32767 := Int.le_of_lt_add_one BitVec.toInt_lt
  exact ⟨Int.ediv_le_ediv (kOctave_pos c) hlow, Int.ediv_le_ediv (kOctave_pos c) hhigh⟩

/-- Settles O32: the fold is the division with remainder of the integers by a positive number, which is monotone in the pitch. -/
theorem octaveFoldIsFloorDivision : Obligations.OctaveFoldIsFloorDivision := by
  intro c pitch
  obtain ⟨hfold, hfold'⟩ := foldedPitch_range c.wellFormed.1 pitch
  obtain ⟨hlow, hhigh⟩ := octaveShift_range c pitch
  have hsum : pitch.toInt = octaveShift c.toParams pitch * c.kOctave + foldedPitch c.toParams pitch :=
    (add_sub_cancel _ _).symm
  have hneg : pitch.toInt < 0 ↔ octaveShift c.toParams pitch < 0 :=
    lt_iff_lt_of_le_iff_le (Int.ediv_nonneg_iff_of_pos (kOctave_pos c)).symm
  refine ⟨hsum, hfold, hfold', hneg, hlow, hhigh, fun hk => ?_⟩
  rw [hk] at hlow hhigh
  exact ⟨hlow, hhigh⟩

/-! ### The base increment -/

/-- A well-formed configuration holds both words of `LUT_INC` that the converter reads (R13, R114). -/
theorem exists_lutInc_neighbours (c : Config) (pitch : S16) :
    ∃ a b : U32, c.rom.lutInc[incIndex c.toParams pitch]? = some a ∧
      c.rom.lutInc[incIndex c.toParams pitch + 1]? = some b := by
  have hlen := incIndex_lt c.wellFormed pitch
  exact ⟨_, _, List.getElem?_eq_getElem (Nat.lt_of_succ_lt hlen), List.getElem?_eq_getElem hlen⟩

/-- An entry of `LUT_INC`, read as an unsigned word (R20, R64). -/
theorem romWord_lutInc {r : Rom} {i : Nat} {w : U32} (h : r.lutInc[i]? = some w) : romWord r .lutInc i = w.toNat :=
  romWord_eq (congrArg (Option.map fun w : U32 => (w.toNat : Int)) h)

section Neighbours

variable {p : Params} {pitch : S16} {a b : U32} (ha : p.rom.lutInc[incIndex p pitch]? = some a)
  (hb : p.rom.lutInc[incIndex p pitch + 1]? = some b)

include ha hb

/-- The base increment, on the two words it reads (R114). -/
theorem incBase_eq : incBase p pitch =
    (a.toNat : Int) + asr (((b.toNat : Int) - a.toNat) * (incFraction p pitch : Int)) p.incFracBits := by
  rw [incBase, romWord_lutInc ha, romWord_lutInc hb]

/-- The base increment lies between the two words it reads (R114). -/
theorem incBase_between :
    min (a.toNat : Int) b.toNat ≤ incBase p pitch ∧ incBase p pitch ≤ max (a.toNat : Int) b.toNat := by
  have hfraction : (incFraction p pitch : Int) ≤ 2 ^ p.incFracBits := mod_cast (incFraction_lt p pitch).le
  rw [incBase_eq ha hb]
  exact interpolate_between (Int.natCast_nonneg _) hfraction

end Neighbours

/-- The base increment is a u32 (R114). -/
theorem incBase_range (c : Config) (pitch : S16) : 0 ≤ incBase c.toParams pitch ∧ incBase c.toParams pitch < 2 ^ 32 := by
  obtain ⟨a, b, ha, hb⟩ := exists_lutInc_neighbours c pitch
  obtain ⟨hmin, hmax⟩ := incBase_between ha hb
  have ha32 := a.isLt
  have hb32 := b.isLt
  omega

/-- The base increment is the value of a 32-bit word (R114). -/
theorem exists_incBase_eq_toNat (c : Config) (pitch : S16) : ∃ base : U32, incBase c.toParams pitch = base.toNat := by
  obtain ⟨hnonneg, hlt⟩ := incBase_range c pitch
  refine ⟨BitVec.ofNat 32 (incBase c.toParams pitch).toNat, ?_⟩
  rw [BitVec.toNat_ofNat]
  omega

/-- Settles O33: the base increment is an interpolated value, which lies between its two ends, and both ends are u32 words. -/
theorem baseIncrementInterpolates : Obligations.BaseIncrementInterpolates := by
  intro c pitch i fr
  obtain ⟨a, b, ha, hb⟩ := exists_lutInc_neighbours c pitch
  obtain ⟨hmin, hmax⟩ := incBase_between ha hb
  obtain ⟨hnonneg, hlt⟩ := incBase_range c pitch
  refine ⟨a, b, ha, hb, incBase_eq ha hb, hmin, hmax, hnonneg, hlt, fun hfr => ?_⟩
  have hfraction : incFraction c.toParams pitch = 0 := hfr
  rw [incBase_eq ha hb, hfraction, Int.natCast_zero, mul_zero, asr_zero, add_zero]

/-! ### The octave shift -/

/-- The logical shift to the right, on the numbers. -/
theorem natCast_toNat_ushiftRight (x : U32) (n : Nat) : ((x >>> n).toNat : Int) = (x.toNat : Int) / 2 ^ n := by
  rw [BitVec.toNat_ushiftRight, Nat.shiftRight_eq_div_pow]
  push_cast
  rfl

/-- A count of 0 or more shifts the word left and keeps its low 32 bits (R115, R116). -/
theorem shiftOctaves_of_nonneg (base : U32) {s : Int} (hs : 0 ≤ s) : shiftOctaves base.toNat s = base <<< s.toNat := by
  have hcast : (base.toNat : Int) * 2 ^ s.toNat = (base.toNat * 2 ^ s.toNat : Nat) := by push_cast; rfl
  apply BitVec.eq_of_toNat_eq
  rw [shiftOctaves, if_pos hs, wrap32, hcast, BitVec.ofInt_natCast, BitVec.toNat_ofNat, BitVec.toNat_shiftLeft,
    Nat.shiftLeft_eq]

/-- A count of 0 or less is the logical shift of the word to the right (R115, R116). -/
theorem shiftOctaves_of_nonpos (base : U32) {s : Int} (hs : s ≤ 0) : shiftOctaves base.toNat s = base >>> (-s).toNat := by
  obtain rfl | hneg := hs.eq_or_lt
  · simpa using shiftOctaves_of_nonneg base le_rfl
  · rw [shiftOctaves, if_neg hneg.not_ge, wrap32, asr, ← natCast_toNat_ushiftRight, BitVec.ofInt_natCast,
      BitVec.ofNat_toNat, BitVec.setWidth_eq]

/-- Settles O35: both directions of the octave shift are the shifts of the 32-bit word. -/
theorem octaveShiftCorners : Obligations.OctaveShiftCorners := by
  intro base n
  have hleft : shiftOctaves base.toNat n = base <<< n := shiftOctaves_of_nonneg base (Int.natCast_nonneg n)
  have hright : shiftOctaves base.toNat (-(n : Int)) = base >>> n := by
    simpa using shiftOctaves_of_nonpos base (s := -(n : Int)) (by omega)
  exact ⟨hleft, fun h => hleft.trans (BitVec.shiftLeft_eq_zero h), fun _ => hright,
    fun h => hright.trans (BitVec.ushiftRight_eq_zero h)⟩

/-- The octave shift on the numbers (R115). -/
theorem toNat_shiftOctaves (base : U32) (s : Int) :
    ((shiftOctaves base.toNat s).toNat : Int) =
      if 0 ≤ s then (base.toNat : Int) * 2 ^ s.toNat % 2 ^ 32 else (base.toNat : Int) / 2 ^ (-s).toNat := by
  split
  case isTrue hs =>
    rw [shiftOctaves_of_nonneg base hs, BitVec.toNat_shiftLeft, Nat.shiftLeft_eq]
    push_cast
    rfl
  case isFalse hs =>
    rw [shiftOctaves_of_nonpos base (not_le.mp hs).le, natCast_toNat_ushiftRight]

/-- Settles O34: `INC` is the octave shift of the base increment, whose index and fraction are quotient and remainder of the
folded pitch. -/
theorem incrementWholeFunction : Obligations.IncrementWholeFunction := by
  intro c pitch s f
  have hindex : incIndex c.toParams pitch = f / 2 ^ c.incFracBits := by
    rw [incIndex, Nat.shiftRight_eq_div_pow, foldedPitch_eq_emod]
  have hfraction : incFraction c.toParams pitch = f % 2 ^ c.incFracBits := by
    rw [incFraction_eq, foldedPitch_eq_emod]
  obtain ⟨a, b, ha, hb⟩ := exists_lutInc_neighbours c pitch
  have hinterpolated := incBase_eq ha hb
  obtain ⟨w, hw⟩ := exists_incBase_eq_toNat c pitch
  rw [hindex] at ha hb
  rw [hfraction, asr] at hinterpolated
  refine ⟨a, b, ha, hb, ?_⟩
  intro base
  have hbase : base = w.toNat := hinterpolated.symm.trans hw
  have hinc : inc c.toParams pitch = shiftOctaves w.toNat s := congrArg (shiftOctaves · s) hw
  rw [hinc, hbase, toNat_shiftOctaves]

/-! ### The octave law -/

/-- One octave up adds 1 to the octave count (R120). -/
theorem octaveShift_octave_up {c : Config} {p q : S16} (h : q.toInt = p.toInt + c.kOctave) :
    octaveShift c.toParams q = octaveShift c.toParams p + 1 := by
  rw [octaveShift, h, Int.add_ediv_of_dvd_right dvd_rfl, Int.ediv_self (kOctave_pos c).ne', octaveShift]

/-- One octave up leaves the base increment, which reads the folded pitch alone (R120). -/
theorem incBase_octave_up {c : Config} {p q : S16} (h : q.toInt = p.toInt + c.kOctave) :
    incBase c.toParams q = incBase c.toParams p := by
  have hfold : foldedPitch c.toParams q = foldedPitch c.toParams p := by
    rw [foldedPitch_eq_emod, h, Int.add_emod_right, foldedPitch_eq_emod]
  simp only [incBase, incIndex, incFraction, hfold]

/-- Above the base octave one more octave is one more place to the left. -/
theorem shiftOctaves_succ_of_nonneg (base : U32) {s : Int} (hs : 0 ≤ s) :
    shiftOctaves base.toNat (s + 1) = shiftOctaves base.toNat s <<< 1 := by
  rw [shiftOctaves_of_nonneg base hs, shiftOctaves_of_nonneg base (by omega), Int.toNat_add hs one_pos.le,
    BitVec.shiftLeft_add]
  rfl

/-- Below the base octave one octave less is one more place to the right. -/
theorem shiftOctaves_eq_ushiftRight_of_neg (base : U32) {s : Int} (hs : s < 0) :
    shiftOctaves base.toNat s = shiftOctaves base.toNat (s + 1) >>> 1 := by
  have hcount : (-s).toNat = (-(s + 1)).toNat + 1 := by omega
  rw [shiftOctaves_of_nonpos base hs.le, shiftOctaves_of_nonpos base (by omega), hcount, BitVec.shiftRight_add]

/-- A place to the right and back clears bit 0. -/
theorem toNat_ushiftRight_one_shiftLeft_one (x : U32) : (x >>> 1 <<< 1).toNat = x.toNat / 2 * 2 := by
  have := x.isLt
  rw [BitVec.toNat_shiftLeft, BitVec.toNat_ushiftRight, Nat.shiftLeft_eq, Nat.shiftRight_eq_div_pow]
  omega

/-- Settles O36: an octave up keeps the base increment and adds 1 to the count, so the two increments are one place apart. -/
theorem octaveLaw : Obligations.OctaveLaw := by
  intro c p q hpq s base
  obtain ⟨w, hw⟩ := exists_incBase_eq_toNat c p
  have hbase : base = w.toNat := hw
  have hp : inc c.toParams p = shiftOctaves w.toNat s := by rw [inc, hw]
  have hq : inc c.toParams q = shiftOctaves w.toNat (s + 1) := by
    rw [inc, incBase_octave_up hpq, octaveShift_octave_up hpq, hw]
  have hbelow (hs : s < 0) : inc c.toParams q = w >>> (-s - 1).toNat ∧
      (inc c.toParams p <<< 1).toNat = (inc c.toParams q).toNat / 2 * 2 := by
    constructor
    · rw [hq, shiftOctaves_of_nonpos w (by omega), neg_add']
    · rw [hp, shiftOctaves_eq_ushiftRight_of_neg w hs, ← hq, toNat_ushiftRight_one_shiftLeft_one]
  refine ⟨fun hs => ?_, fun hs => ?_, fun hs => ?_⟩
  · rw [hp, hq, shiftOctaves_succ_of_nonneg w hs]
  · obtain ⟨hqw, hpw⟩ := hbelow (by omega)
    have hq0 : inc c.toParams q = w := by simpa [hs] using hqw
    rw [hq0] at hpw ⊢
    omega
  · obtain ⟨hqw, hpw⟩ := hbelow (by omega)
    exact ⟨by rw [hqw, hbase, natCast_toNat_ushiftRight], hpw⟩

/-! ### SET_PITCH -/

/-- Settles O31: the effect of SET_PITCH on its channel's bank. -/
theorem setPitchLoadsPitchAndIncrement : Obligations.SetPitchLoadsPitchAndIncrement :=
  fun _ _ _ _ hs hb => exec_live hs hb (nomatch ·)

end Sys2Proof.Machine

/-! PROOFS. The phase accumulator and clock divider of 41_phase_divider.md: the wrap of STEP (R134), one tick (R131, R133, R135),
the fault of SET_DIVIDER (R139), and the commands that leave `DIVIDED_PHASE` (R140). -/

namespace Sys2Proof.Machine

open Safety

/-! ### The wrap -/

/-- The new phase, as a number (R131). -/
theorem toNat_newPhase (b : Bank) : (newPhase b).toNat = (b.phase.toNat + b.phaseInc.toNat) % 2 ^ 32 :=
  BitVec.toNat_add ..

/-- The new phase is below the increment exactly when the add carries out (R134). -/
theorem wrapDetected_newPhase_iff (b : Bank) :
    wrapDetected (newPhase b) b.phaseInc = true ↔ 2 ^ 32 ≤ b.phase.toNat + b.phaseInc.toNat := by
  have := b.phase.isLt
  have := b.phaseInc.isLt
  rw [wrapDetected, decide_eq_true_iff, toNat_newPhase]
  omega

/-- An increment of 0 leaves the phase (R134). -/
theorem newPhase_of_phaseInc_zero {b : Bank} (h : b.phaseInc = 0) : newPhase b = b.phase := by
  rw [newPhase, h]
  exact BitVec.add_zero _

/-- No phase is below an increment of 0 (R134). -/
theorem wrapDetected_zero (x : U32) : wrapDetected x 0 = false := decide_eq_false (Nat.not_lt_zero _)

/-- Settles O38: the carry out of the add, and the bound of the sum of two 32-bit words. -/
theorem wrapIsTheCarryOut : Obligations.WrapIsTheCarryOut := by
  intro b
  have hsum : b.phase.toNat + b.phaseInc.toNat < 2 * 2 ^ 32 :=
    (Nat.add_lt_add b.phase.isLt b.phaseInc.isLt).trans_eq (two_mul _).symm
  refine ⟨wrapDetected_newPhase_iff b, hsum, fun h => ⟨?_, newPhase_of_phaseInc_zero h⟩⟩
  rw [h, wrapDetected_zero]

/-! ### One tick -/

/-- The counter after the wrap check, on the carry out of the add (R133, R134). -/
theorem newCounter_eq (b : Bank) : newCounter b =
    if 2 ^ 32 ≤ b.phase.toNat + b.phaseInc.toNat then (b.divCounter.toNat + 1) % b.divider.toNat
    else b.divCounter.toNat := by
  simp only [newCounter, wrapDetected_newPhase_iff]

/-- A number is kept to 32 bits by its remainder modulo `2^32` (R18). -/
theorem wrap32_natCast (n : Nat) : wrap32 n = BitVec.ofNat 32 (n % 2 ^ 32) := by
  rw [wrap32, BitVec.ofInt_natCast]
  exact BitVec.eq_of_toNat_eq (by simp)

/-- Settles O37: the effect of STEP on its channel's bank, each of the three registers written out on the numbers. -/
theorem stepAdvancesOneTick : Obligations.StepAdvancesOneTick := by
  intro s ch b hs hb hinv d p k
  obtain ⟨hd, -, -⟩ := hinv
  have hne : b.divider ≠ 0 := fun h0 => absurd hd (by simp [h0])
  have hp : newPhase b = BitVec.ofNat 32 p :=
    BitVec.eq_of_toNat_eq (by rw [toNat_newPhase, BitVec.toNat_ofNat, Nat.mod_mod])
  have hk : newCounter b = k := newCounter_eq b
  have hbank : stepBank b = { b with
      phase := BitVec.ofNat 32 p, divCounter := BitVec.ofNat 32 k,
      dividedPhase := BitVec.ofNat 32 ((p / d + 2 ^ 32 / d * k) % 2 ^ 32) } := by
    rw [stepBank, wrap32_natCast, dividedSum, toNat_newPhase, hp, hk]
  rw [← hbank]
  exact exec_live hs hb fun _ => hne

/-! ### The fault of SET_DIVIDER -/

/-- DIVIDER_ZERO is the effect of SET_DIVIDER with value 0 and of no other command (R139). -/
theorem bankEffect_dividerZero_iff {p : Params} {i : Instr} {b : Bank} :
    bankEffect p i b = .error .dividerZero ↔ ∃ ch, i = .setDivider ch 0 := by
  cases i with
  | setDivider ch v =>
    have hzero : reservedClear p .immdiv 0#32 = true := reservedClear_iff.mpr (Nat.two_pow_pos _)
    obtain rfl | hv := eq_or_ne v 0
    · simp [bankEffect, hzero]
    · simp only [bankEffect, hv, if_false, Instr.setDivider.injEq, and_false, exists_false, iff_false]
      split <;> simp
  | setShape ch code => cases h : shapeOfCode code <;> simp [bankEffect, h]
  | readReg ch n => cases h : regOfNumber n <;> simp [bankEffect, h]
  | nop | init | setPitch | setLevel | setInitialPhase | setDividedPitch | step | sample => simp [bankEffect]

/-- A live block is halted with cause 2 exactly by a DIVIDER_ZERO effect (R221, R224). -/
theorem State.apply_dividerZero_iff {s : State} {ch : Channel} {e : Except Cause (Bank × U32)}
    (hs : s.status.fault = false) :
    (s.apply ch e).status.fault = true ∧ (s.apply ch e).status.cause = 2 ↔ e = .error .dividerZero := by
  cases e with
  | error f => cases f <;> simp [State.apply, causeCode]
  | ok bd => simp [State.apply, hs]

/-- Among the commands of a live channel, SET_DIVIDER with value 0 alone raises DIVIDER_ZERO (R139). -/
theorem exec_dividerZero_iff {i : Instr} {s t : State} {b : Bank} (hs : s.status.fault = false)
    (hb : s.bank? i.channel = some b) (h : exec i s = .next t) :
    t.status.fault = true ∧ t.status.cause = 2 ↔ ∃ ch, i = .setDivider ch 0 := by
  obtain ⟨hf, -⟩ | ⟨-, hnone, -⟩ | ⟨-, a, -, -, rfl⟩ := exec_next_cases h
  · exact absurd (hs.symm.trans hf) (by decide)
  · exact absurd (hb.symm.trans hnone) (by simp)
  · rw [State.apply_dividerZero_iff hs, bankEffect_dividerZero_iff]

/-- The command assembled for a channel names that channel (R81). -/
@[simp] theorem assembleInstr_channel (p : Params) (o : Opcode) (ch : Channel) (d : U32) :
    (assembleInstr p o ch d).channel = ch := by cases o <;> rfl

/-- An `immdiv` operand without a reserved bit is the whole of `DATA` (R84). -/
theorem immdivOperand_of_fits {p : Params} {d : U32} (h : d.toNat < 2 ^ p.dividerBits) : immdivOperand p d = d := by
  rw [immdivOperand, Nat.mod_eq_of_lt h, BitVec.ofNat_toNat, BitVec.setWidth_eq]

/-- The words of SET_DIVIDER with value 0 among those that decode (R81, R85). -/
theorem decode_setDivider_zero_iff {p : Params} {w : Command} {i : Instr} (h : decode p w = .ok i) :
    (∃ ch, i = .setDivider ch 0) ↔ w.toNat / 2 ^ 36 = 5 ∧ w.toNat % 2 ^ 32 = 0 := by
  obtain ⟨o, ho, -, hfit, rfl⟩ := decode_ok_iff.mp h
  rw [← toNat_commandOp_eq_div, ← toNat_commandData_eq_mod, ← opcodeBits_of_opcodeOfBits ho]
  cases o with
  | setDivider => simp [assembleInstr, opcodeBits, immdivOperand_of_fits hfit, ← BitVec.toNat_inj]
  | nop | init | setPitch | setShape | setLevel | setInitialPhase | setDividedPitch | step | sample | readReg =>
    simp [assembleInstr, opcodeBits]

/-- The words of R222: those the decoder refuses, and two reserved operand values. -/
theorem illegalWord_iff {p : Params} {w : Command} :
    IllegalWord p w ↔ (∃ e, decode p w = .error e) ∨
      (w.toNat / 2 ^ 36 = 3 ∧ 5 ≤ w.toNat % 2 ^ 32 % 8) ∨ (w.toNat / 2 ^ 36 = 10 ∧ 10 ≤ w.toNat % 2 ^ 32 % 16) := by
  rw [exists_decode_error_iff, or_assoc, or_assoc]
  rfl

/-- A word that decodes is none of R222's unless it is a SET_SHAPE or a READ_REG. -/
theorem not_illegalWord_of_decode_ok {p : Params} {w : Command} {i : Instr} (h : decode p w = .ok i)
    (hshape : w.toNat / 2 ^ 36 ≠ 3) (hread : w.toNat / 2 ^ 36 ≠ 10) : ¬ IllegalWord p w := by
  rw [illegalWord_iff]
  rintro (⟨e, he⟩ | ⟨h3, -⟩ | ⟨h10, -⟩)
  · exact absurd (h.symm.trans he) (by simp)
  · exact hshape h3
  · exact hread h10

/-- Under the invariant a word that decodes names a channel with a bank (R32, R82). -/
theorem exists_bank_of_decode_ok {s : State} {w : Command} {i : Instr} (hl : s.banks.length = s.cfg.nChannels)
    (h : decode s.cfg.toParams w = .ok i) : ∃ b, s.bank? i.channel = some b := by
  obtain ⟨o, -, hch, -, rfl⟩ := decode_ok_iff.mp h
  obtain ⟨b, hb, -⟩ := State.bank?_exists hl hch
  exact ⟨b, by rwa [assembleInstr_channel]⟩

/-- Settles O18: a word that the decoder refuses has cause 1 and is illegal; one that decodes raises DIVIDER_ZERO exactly when its
command is SET_DIVIDER with value 0. -/
theorem dividerZeroExactlyWhenSetDividerZero : Obligations.DividerZeroExactlyWhenSetDividerZero := by
  constructor
  · intro s ch b hs hb
    have hzero : bankEffect s.cfg.toParams (.setDivider ch 0) b = .error .dividerZero :=
      bankEffect_dividerZero_iff.mpr ⟨ch, rfl⟩
    rw [exec_live (i := .setDivider ch 0) hs hb (nomatch ·), hzero]
    rfl
  · intro s t w rest hinv hs hc h
    obtain ⟨hlen, -, -⟩ := hinv
    obtain ⟨hf, -⟩ | ⟨-, he, hstep⟩ | ⟨-, i, hi, hstep⟩ := step_cons hc
    · exact absurd (hs.symm.trans hf) (by decide)
    · obtain rfl := Host.Outcome.next.inj (hstep.symm.trans h)
      have hillegal : IllegalWord s.cfg.toParams w := illegalWord_iff.mpr (.inl he)
      simp [hillegal, causeCode]
    · obtain ⟨b, hb⟩ := exists_bank_of_decode_ok hlen hi
      have hraised : t.status.fault = true ∧ t.status.cause = 2 ↔ ∃ ch, i = .setDivider ch 0 :=
        exec_dividerZero_iff (s := { s with commands := rest }) hs hb (hstep.symm.trans h)
      rw [hraised, decode_setDivider_zero_iff hi, iff_and_self]
      exact fun ⟨hop, _⟩ => not_illegalWord_of_decode_ok hi (by omega) (by omega)

/-! ### What leaves the divided phase -/

/-- No command changes the configuration (R12, R47). -/
theorem exec_cfg {i : Instr} {s t : State} (h : exec i s = .next t) : t.cfg = s.cfg := by
  obtain ⟨-, rfl⟩ | ⟨-, -, rfl⟩ | ⟨-, b, -, -, rfl⟩ := exec_next_cases h
  · rfl
  · rfl
  · cases bankEffect s.cfg.toParams i b <;> rfl

/-- A command leaves the bank of a channel or, on its own channel, the bank of its effect. -/
theorem exec_bank?_cases {i : Instr} {s t : State} {c : Channel} {b : Bank} (h : exec i s = .next t)
    (hb : s.bank? c = some b) :
    t.bank? c = some b ∨ ∃ b' d, bankEffect s.cfg.toParams i b = .ok (b', d) ∧ t.bank? c = some b' := by
  obtain ⟨-, rfl⟩ | ⟨-, -, rfl⟩ | ⟨-, a, ha, -, rfl⟩ := exec_next_cases h
  · exact .inl hb
  · exact .inl hb
  · by_cases hc : c = i.channel
    · subst hc
      obtain rfl : a = b := Option.some.inj (ha.symm.trans hb)
      cases he : bankEffect s.cfg.toParams i a with
      | error f => exact .inl hb
      | ok bd =>
        obtain ⟨b', d⟩ := bd
        exact .inr ⟨b', d, rfl, State.bank?_apply_ok hb⟩
    · exact .inl ((State.bank?_apply_other hc _).trans hb)

/-- The Writers column of R43 for `DIVIDED_PHASE`: STEP and INIT. -/
theorem writes_dividedPhase {o : Opcode} (hstep : o ≠ .step) (hinit : o ≠ .init) : writes o .dividedPhase = false := by
  cases o with
  | step => exact absurd rfl hstep
  | init => exact absurd rfl hinit
  | _ => rfl

/-- SET_DIVIDER and SET_PITCH write no register that the synthesizer reads (R117, R138, R151). -/
theorem bankEffect_sampleValue {p : Params} {i : Instr} {b b' : Bank} {d : U32} (he : bankEffect p i b = .ok (b', d))
    (hi : i.opcode = .setDivider ∨ i.opcode = .setPitch) :
    effectivePhase b' = effectivePhase b ∧ sampleValue p b' = sampleValue p b := by
  cases i with
  | setDivider ch v =>
    obtain ⟨-, -, rfl, -⟩ := bankEffect_setDivider_ok.mp he
    exact ⟨rfl, rfl⟩
  | setPitch ch pitch => cases he; exact ⟨rfl, rfl⟩
  | nop | init | setShape | setLevel | setInitialPhase | setDividedPitch | step | sample | readReg =>
    simp [Instr.opcode] at hi

/-- Settles O43, by the Writers column on the bank of the effect, and the registers SET_DIVIDER and SET_PITCH write. -/
theorem dividedPhaseStaysUntilTheNextStep : Obligations.DividedPhaseStaysUntilTheNextStep := by
  intro i s t c b h hb hstep hinit
  rw [exec_cfg h]
  obtain hsame | ⟨b', d, he, hb'⟩ := exec_bank?_cases h hb
  · exact ⟨b, hsame, rfl, fun _ => ⟨rfl, rfl⟩⟩
  · have hkept : b'.dividedPhase = b.dividedPhase :=
      bankEffect_readRegister_of_not_writes (r := .dividedPhase) he (writes_dividedPhase hstep hinit)
    exact ⟨b', hb', hkept, bankEffect_sampleValue he⟩

end Sys2Proof.Machine

/-! PROOFS. The wavetable synthesizer of 42_synthesizer.md: the table lookup (R153, R154), level scaling (R156, R157), the
crossfade (R161 to R164), the reference shapes (R158 to R160), and what follows for a sample (R150 to R152, R173, R175, R176). -/

namespace Sys2Proof.Machine

/-! ### The s16 range -/

/-- An integer is the value of an s16 (R15). -/
abbrev InS16 (v : Int) : Prop := -32768 ≤ v ∧ v ≤ 32767

/-- The value of a 16-bit word is in the range. -/
theorem toInt_inS16 (x : S16) : InS16 x.toInt :=
  ⟨BitVec.le_toInt x, Int.le_of_lt_add_one BitVec.toInt_lt⟩

/-- Narrowing with wrap gives an s16 (R18). -/
theorem wrap16s_inS16 (v : Int) : InS16 (wrap16s v) := by
  unfold wrap16s
  omega

/-- Narrowing with wrap leaves an s16 as it is (R18). -/
theorem wrap16s_of_inS16 {v : Int} (h : InS16 v) : wrap16s v = v := by
  unfold wrap16s
  omega

/-- Narrowing with saturation, case by case (R18). -/
theorem clamp16_eq (v : Int) : clamp16 v = if v < -32768 then -32768 else if 32767 < v then 32767 else v := by
  unfold clamp16
  split_ifs <;> omega

/-- Narrowing with saturation gives an s16 (R18). -/
theorem clamp16_inS16 (v : Int) : InS16 (clamp16 v) := by
  unfold clamp16
  omega

/-- Narrowing with saturation leaves an s16 as it is (R18). -/
theorem clamp16_of_inS16 {v : Int} (h : InS16 v) : clamp16 v = v := by
  unfold clamp16
  omega

/-- A value interpolated between two s16 values is an s16. -/
theorem interpolate_inS16 {a b w : Int} {n : Nat} (ha : InS16 a) (hb : InS16 b) (h0 : 0 ≤ w) (h1 : w ≤ 2 ^ n) :
    InS16 (a + asr ((b - a) * w) n) := by
  obtain ⟨hmin, hmax⟩ := interpolate_between h0 h1
  exact ⟨(le_min ha.1 hb.1).trans hmin, hmax.trans (max_le ha.2 hb.2)⟩

/-! ### The table lookup -/

/-- The index into a table of 1024 entries is `ep[31:22]` (R154). -/
theorem lookupIndex_ten (ep : U32) : lookupIndex 10 ep = (ep.extractLsb' 22 10).toNat := by
  have := ep.isLt
  rw [lookupIndex, BitVec.extractLsb'_toNat, Nat.shiftRight_eq_div_pow]
  omega

/-- The fraction of a lookup in a table of 1024 entries is `ep[21:6]` (R154). -/
theorem lookupFraction_ten (ep : U32) : lookupFraction 10 ep = (ep.extractLsb' 6 16).toNat := by
  rw [lookupFraction, BitVec.extractLsb'_toNat]
  exact Nat.and_two_pow_sub_one_eq_mod _ 16

/-- The index into a table of 1024 entries is the quotient of the number `ep[31:6]` (R154). -/
theorem lookupIndex_ten_eq_div (ep : U32) : lookupIndex 10 ep = (ep.extractLsb' 6 26).toNat / 2 ^ 16 := by
  have := ep.isLt
  rw [lookupIndex_ten, BitVec.extractLsb'_toNat, BitVec.extractLsb'_toNat, Nat.shiftRight_eq_div_pow,
    Nat.shiftRight_eq_div_pow]
  omega

/-- The fraction of a lookup in a table of 1024 entries is the remainder of the number `ep[31:6]` (R154). -/
theorem lookupFraction_ten_eq_mod (ep : U32) : lookupFraction 10 ep = (ep.extractLsb' 6 26).toNat % 2 ^ 16 := by
  rw [lookupFraction_ten, BitVec.extractLsb'_toNat, BitVec.extractLsb'_toNat]
  omega

/-- A lookup in a table of 1024 entries does not read `ep[5:0]` (R154). -/
theorem lookup_ten_congr {r : Rom} {t : Table} {ep ep' : U32} (h : ep.extractLsb' 6 26 = ep'.extractLsb' 6 26) :
    lookup r t 10 ep = lookup r t 10 ep' := by
  simp only [lookup, lookupIndex_ten_eq_div, lookupFraction_ten_eq_mod, h]

/-- Settles O47: both numbers a lookup computes from the phase are fields of `ep[31:6]`. -/
theorem sineLookupReadsTheTopBits : Obligations.SineLookupReadsTheTopBits := by
  intro c t ep ep'
  refine ⟨lookupIndex_ten ep, lookupFraction_ten ep, fun h => ⟨lookup_ten_congr h, fun hbits => ?_⟩⟩
  rw [hbits]
  exact lookup_ten_congr h

/-- The number of entries of a wavetable (R63). -/
theorem tableEntries_eq_two_pow (c : Config) {t : Table} {B : Nat} (ht : t ≠ .lutInc)
    (hB : if t = .sine then B = 10 else B = c.bandBits) : tableEntries c.rom t = 2 ^ B ∧ B ≤ 16 := by
  obtain ⟨-, -, ⟨hsine, htri1, htri10, htri100, hramp1, hramp10, hramp100, htrap1, htrap10, htrap100⟩, -, -, -, hmax,
    -⟩ := c.wellFormed
  cases t with
  | sine => obtain rfl : B = 10 := hB; exact ⟨hsine, by decide⟩
  | lutInc => exact absurd rfl ht
  | _ => obtain rfl : B = c.bandBits := hB; exact ⟨‹_›, hmax⟩

/-- A word inside a wavetable is an s16 (R64). -/
theorem romWord_inS16 {r : Rom} {t : Table} {i : Nat} (ht : t ≠ .lutInc) (hi : i < tableEntries r t) :
    InS16 (romWord r t i) := by
  obtain ⟨v, hv⟩ := Option.isSome_iff_exists.mp (tableEntry_isSome.mpr hi)
  rw [romWord_eq hv]
  exact tableEntry_s16 ht hv

/-- A lookup gives an s16, since it lies between two words of its table (R155). -/
theorem lookup_inS16 (c : Config) {t : Table} {B : Nat} (ht : t ≠ .lutInc)
    (hB : if t = .sine then B = 10 else B = c.bandBits) (ep : U32) : InS16 (lookup c.rom t B ep) := by
  obtain ⟨hlen, hB16⟩ := tableEntries_eq_two_pow c ht hB
  have ha := romWord_inS16 ht ((lookupIndex_lt (by omega) ep).trans_eq hlen.symm)
  have hb := romWord_inS16 ht ((Nat.mod_lt (lookupIndex B ep + 1) (Nat.two_pow_pos B)).trans_eq hlen.symm)
  have hfraction : (lookupFraction B ep : Int) ≤ 2 ^ 16 := mod_cast (lookupFraction_lt B ep).le
  exact interpolate_inS16 ha hb (Int.natCast_nonneg _) hfraction

/-! ### Level scaling -/

/-- Scaling in the form `omega` reads (R156). -/
theorem scale_eq (v : Int) (level : U16) : scale v level = v * level.toNat / 65536 := asr_16 _

/-- Level 0 is silent (R157). -/
@[simp] theorem scale_level_zero (v : Int) : scale v 0 = 0 := by simp [scale_eq]

/-- Full level takes one unit from a positive value and nothing from another (R157). -/
theorem scale_level_full (v : Int) : scale v 65535 = v + -v / 65536 := by
  have hlevel : ((65535 : U16).toNat : Int) = 65535 := rfl
  rw [scale_eq, hlevel]
  omega

/-- Scaling makes a positive value smaller and never negative (R157). -/
theorem scale_of_pos {v : Int} (hv : 0 < v) (level : U16) : 0 ≤ scale v level ∧ scale v level < v := by
  have hlevel : (level.toNat : Int) < 65536 := mod_cast level.isLt
  rw [scale_eq]
  exact ⟨Int.ediv_nonneg (mul_nonneg hv.le (Int.natCast_nonneg _)) (by decide),
    Int.ediv_lt_of_lt_mul (by decide) (mul_lt_mul_of_pos_left hlevel hv)⟩

/-- Scaling a value that is not positive moves it towards 0 (R157). -/
theorem scale_of_nonpos {v : Int} (hv : v ≤ 0) (level : U16) : v ≤ scale v level ∧ scale v level ≤ 0 :=
  (asr_scaled_bounds (Int.natCast_nonneg _) (mod_cast level.isLt.le)).2 hv

/-- A scaled s16 is an s16 below 32767 (R157). -/
theorem scale_range {v : Int} (hv : InS16 v) (level : U16) : -32768 ≤ scale v level ∧ scale v level ≤ 32766 := by
  obtain hpos | hnonpos := lt_or_ge 0 v
  · have := scale_of_pos hpos level
    omega
  · have := scale_of_nonpos hnonpos level
    omega

/-- The lowest scaled value is reached by the lowest value at full level alone (R157). -/
theorem scale_eq_min_iff {v : Int} (hv : InS16 v) (level : U16) :
    scale v level = -32768 ↔ v = -32768 ∧ level = 65535 := by
  have hfull : level = 65535 ↔ level.toNat = 65535 := BitVec.toNat_inj.symm
  have hlevel := level.isLt
  obtain hpos | hnonpos := lt_or_ge 0 v
  · have := scale_of_pos hpos level
    omega
  · obtain rfl | hne := eq_or_ne v (-32768)
    · rw [scale_eq, hfull]
      omega
    · have := scale_of_nonpos hnonpos level
      omega

/-- Settles O50, by the sign of the value; full level and the lowest value are computed. -/
theorem scaleRange : Obligations.ScaleRange := by
  intro v level hlow hhigh
  obtain ⟨hmin, hmax⟩ := scale_range ⟨hlow, hhigh⟩ level
  refine ⟨fun h => h ▸ scale_level_zero v, hmin, hmax, scale_eq_min_iff ⟨hlow, hhigh⟩ level, ?_,
    fun hneg => (scale_of_nonpos hneg.le level).2, fun hpos => (scale_of_pos hpos level).1⟩
  rintro rfl
  rw [scale_level_full]
  omega

/-! ### The crossfade -/

/-- The weight inside a band (R161). -/
theorem weight_range {dp lo hi : Int} (hlo : lo < dp) (hhi : dp ≤ hi) : 0 ≤ weight dp lo hi ∧ weight dp lo hi ≤ 65535 := by
  unfold weight
  exact ⟨Int.ediv_nonneg (by omega) (by omega), Int.ediv_le_of_le_mul (by omega) (by nlinarith)⟩

/-- The weight is full exactly at the top of the band (R161). -/
theorem weight_eq_full_iff {dp lo hi : Int} (hlo : lo < dp) (hhi : dp ≤ hi) : weight dp lo hi = 65535 ↔ dp = hi := by
  constructor
  · intro h
    have : 65535 * (hi - lo) ≤ (dp - lo) * 65535 :=
      (Int.le_ediv_iff_mul_le (by omega)).mp h.ge
    omega
  · rintro rfl
    exact Int.mul_ediv_cancel_left _ (by omega)

/-- The weight one pitch step above the bottom of the band (R161). -/
theorem weight_succ (lo hi : Int) : weight (lo + 1) lo hi = 65535 / (hi - lo) := by
  rw [weight, add_sub_cancel_left, one_mul]

/-- `Mix` lies between its two values (R163). -/
theorem mix_between (a b : Int) {w : Int} (h0 : 0 ≤ w) (h1 : w ≤ 65535) : min a b ≤ mix a b w ∧ mix a b w ≤ max a b :=
  interpolate_between h0 (by omega)

/-- `Mix` of two s16 values is an s16 (R163). -/
theorem mix_inS16 {a b w : Int} (ha : InS16 a) (hb : InS16 b) (h0 : 0 ≤ w) (h1 : w ≤ 65535) : InS16 (mix a b w) :=
  interpolate_inS16 ha hb h0 (by omega)

/-- `Mix` at weight 0 is its first value (R163). -/
@[simp] theorem mix_zero (a b : Int) : mix a b 0 = a := by simp [mix]

/-- `Mix` at full weight (R163). -/
theorem mix_full (a b : Int) : mix a b 65535 = b + (a - b) / 65536 := by
  rw [mix, asr_16]
  omega

/-- `Mix` of two s16 values at full weight falls one short of a larger second value and reaches any other (R163). -/
theorem mix_full_of_inS16 {a b : Int} (ha : InS16 a) (hb : InS16 b) :
    (a < b → mix a b 65535 = b - 1) ∧ (b ≤ a → mix a b 65535 = b) := by
  rw [mix_full]
  omega

/-- `Mix` at full weight is its second value or one short of it (R163). -/
theorem mix_full_eq_or {a b : Int} (ha : InS16 a) (hb : InS16 b) : mix a b 65535 = b ∨ mix a b 65535 = b - 1 := by
  obtain ⟨hshort, hexact⟩ := mix_full_of_inS16 ha hb
  exact (le_or_gt b a).imp hexact hshort

/-- `Mix` is within the weight's share of the difference, rounded up, of its first value (R162). -/
theorem abs_mix_sub_le (a b : Int) {w : Int} (h0 : 0 ≤ w) : |mix a b w - a| ≤ (|b - a| * w + 65535) / 65536 := by
  have hshare : |(b - a) * w| = |b - a| * w := by rw [abs_mul, abs_of_nonneg h0]
  rw [mix, add_sub_cancel_left, asr_16, ← hshare, abs_le]
  have := neg_abs_le ((b - a) * w)
  have := le_abs_self ((b - a) * w)
  omega

/-- Settles O51: the weight is a quotient of a part of the band by the band, `Mix` an interpolated value. -/
theorem crossfadeWeightAndMix : Obligations.CrossfadeWeightAndMix := by
  constructor
  · intro dp lo hi hlo hhi
    obtain ⟨hmin, hmax⟩ := weight_range hlo hhi
    exact ⟨rfl, hmin, hmax, weight_eq_full_iff hlo hhi⟩
  · intro a b w ha ha' hb hb' h0 h1
    obtain ⟨hmin, hmax⟩ := mix_between a b h0 h1
    obtain ⟨hlow, hhigh⟩ := mix_inS16 ⟨ha, ha'⟩ ⟨hb, hb'⟩ h0 h1
    obtain ⟨hshort, hexact⟩ := mix_full_of_inS16 ⟨ha, ha'⟩ ⟨hb, hb'⟩
    exact ⟨hmin, hmax, hlow, hhigh, mix_zero a b, mix_full a b, hshort, hexact⟩

/-! ### The reference shapes -/

/-- The default triangle by quotients of the phase (R158). -/
theorem triRefDefault_eq (ep : U32) : triRefDefault ep =
    if ep.toNat / 2 ^ 15 < 65536 then ((ep.toNat / 2 ^ 15 : Nat) : Int) - 32768 else 98303 - (ep.toNat / 2 ^ 15 : Nat) := by
  unfold triRefDefault
  rw [Nat.shiftRight_eq_div_pow]
  exact if_congr Int.ofNat_lt rfl rfl

/-- A configuration with the default triangle (R158). -/
theorem triRef_of_default {p : Params} (h : p.triRef = .default158) (ep : U32) : triRef p ep = triRefDefault ep := by
  rw [triRef, h]

/-- The default triangle is an s16 (R158). -/
theorem triRefDefault_inS16 (ep : U32) : InS16 (triRefDefault ep) := by
  have := ep.isLt
  rw [triRefDefault_eq]
  split_ifs <;> omega

/-- The default triangle rises over the first half of the phase range and falls over the second (R158). -/
theorem triRefDefault_monotone_halves {ep ep' : U32} (h : ep.toNat ≤ ep'.toNat) :
    (ep'.toNat < 2 ^ 31 → triRefDefault ep ≤ triRefDefault ep') ∧
      (2 ^ 31 ≤ ep.toNat → triRefDefault ep' ≤ triRefDefault ep) := by
  rw [triRefDefault_eq, triRefDefault_eq]
  constructor <;> intro hhalf
  · rw [if_pos (by omega), if_pos (by omega)]
    omega
  · rw [if_neg (by omega), if_neg (by omega)]
    omega

/-- Settles O53: the trapezoid is a clamp by definition; the default triangle is linear in the phase on each half. -/
theorem triangleAndTrapezoidReferenceShapes : Obligations.TriangleAndTrapezoidReferenceShapes := by
  refine ⟨fun p ep => clamp16_eq _, fun p hdefault => ?_⟩
  simp only [triRef_of_default hdefault]
  exact ⟨triRefDefault_eq, triRefDefault_inS16, by decide, by decide, fun ep ep' => triRefDefault_monotone_halves⟩

/-- The ramp reference under WRAP (R160). -/
theorem rampRef_wrap {p : Params} (h : p.rampRefConv = .wrap) (ep : U32) :
    rampRef p ep = wrap16s (p.rampRefOffset + (ep.toNat / 2 ^ 16 : Nat)) := by
  rw [rampRef, h, Nat.shiftRight_eq_div_pow]

/-- The ramp reference under SATURATE (R160). -/
theorem rampRef_saturate {p : Params} (h : p.rampRefConv = .saturate) (ep : U32) :
    rampRef p ep = clamp16 (p.rampRefOffset + (ep.toNat / 2 ^ 16 : Nat)) := by
  rw [rampRef, h, Nat.shiftRight_eq_div_pow]

/-- Where the ramp fits 16 bits neither conversion changes it (R160). -/
theorem rampRef_of_inS16 {p : Params} {ep : U32} (h : InS16 (p.rampRefOffset + (ep.toNat / 2 ^ 16 : Nat))) :
    rampRef p ep = p.rampRefOffset + (ep.toNat / 2 ^ 16 : Nat) := by
  cases hconv : p.rampRefConv with
  | wrap => rw [rampRef_wrap hconv, wrap16s_of_inS16 h]
  | saturate => rw [rampRef_saturate hconv, clamp16_of_inS16 h]

/-- Settles O54: each conversion by its own formula; the source's ramp leaves the s16 range at phase `0xFFA60000`. -/
theorem rampReferenceShape : Obligations.RampReferenceShape := by
  intro p ep r
  have hphase := ep.isLt
  have hr : r = p.rampRefOffset + (ep.toNat / 2 ^ 16 : Nat) := rfl
  have hwrap (h : p.rampRefConv = .wrap) : rampRef p ep = (r + 32768) % 65536 - 32768 := rampRef_wrap h ep
  have hsaturate (h : p.rampRefConv = .saturate) :
      rampRef p ep = if r < -32768 then -32768 else if 32767 < r then 32767 else r :=
    (rampRef_saturate h ep).trans (clamp16_eq r)
  refine ⟨hwrap, hsaturate, fun hoffset => ⟨by omega, by omega, fun hbelow => ?_, fun hfrom h => ?_, fun hfrom h => ?_⟩⟩
  · exact rampRef_of_inS16 ⟨by omega, by omega⟩
  · rw [hwrap h]
    omega
  · rw [hsaturate h, if_neg (by omega), if_pos (by omega)]

/-- The triangle is an s16, whatever data gives it (R158). -/
theorem triRef_inS16 (p : Params) (ep : U32) : InS16 (triRef p ep) := by
  unfold triRef
  split
  · exact triRefDefault_inS16 ep
  · exact toInt_inS16 _

/-- The trapezoid reference is an s16 (R159). -/
theorem trapRef_inS16 (p : Params) (ep : U32) : InS16 (trapRef p ep) := clamp16_inS16 _

/-- The ramp reference is an s16 under either conversion (R160). -/
theorem rampRef_inS16 (p : Params) (ep : U32) : InS16 (rampRef p ep) := by
  cases hconv : p.rampRefConv with
  | wrap => exact rampRef_wrap hconv ep ▸ wrap16s_inS16 _
  | saturate => exact rampRef_saturate hconv ep ▸ clamp16_inS16 _

/-! ### The bands -/

/-- The tables the bands read: those other than the sine's and the increments' (R164). -/
abbrev IsBandTable (t : Table) : Prop := t ≠ .lutInc ∧ t ≠ .sine

/-- A lookup in a band table gives an s16 (R155). -/
theorem lookup_band_inS16 (c : Config) {t : Table} (ht : IsBandTable t) (ep : U32) :
    InS16 (lookup c.rom t c.bandBits ep) :=
  lookup_inS16 c ht.1 (by rw [if_neg ht.2]) ep

section Bands

variable (c : Config) (ref : Int) (t10 t100 : Table) (ep : U32) {dp : S16}

/-- Above `P100`, the 100 Hz table alone (R164). -/
theorem banded_above_p100 (h : c.p100.toInt < dp.toInt) :
    banded c.toParams ref t10 t100 ep dp = lookup c.rom t100 c.bandBits ep := if_pos h

/-- Above `P10` and up to `P100`, the crossfade of the two tables (R164). -/
theorem banded_above_p10 (h : c.p10.toInt < dp.toInt) (h' : dp.toInt ≤ c.p100.toInt) :
    banded c.toParams ref t10 t100 ep dp = mix (lookup c.rom t10 c.bandBits ep) (lookup c.rom t100 c.bandBits ep)
      (weight dp.toInt c.p10.toInt c.p100.toInt) := by
  rw [banded, if_neg h'.not_gt, if_pos h]

/-- Above `P1` and up to `P10`, the crossfade of the reference shape and the 10 Hz table (R164). -/
theorem banded_above_p1 (h : c.p1.toInt < dp.toInt) (h' : dp.toInt ≤ c.p10.toInt) :
    banded c.toParams ref t10 t100 ep dp =
      mix ref (lookup c.rom t10 c.bandBits ep) (weight dp.toInt c.p1.toInt c.p10.toInt) := by
  obtain ⟨-, -, -, -, hp100, -⟩ := c.wellFormed
  rw [banded, if_neg (by omega), if_neg h'.not_gt, if_pos h]

/-- Up to `P1`, the reference shape (R164, R178). -/
theorem banded_up_to_p1 (h : dp.toInt ≤ c.p1.toInt) : banded c.toParams ref t10 t100 ep dp = ref := by
  obtain ⟨-, -, -, hp10, hp100, -⟩ := c.wellFormed
  rw [banded, if_neg (by omega), if_neg (by omega), if_neg h.not_gt]

end Bands

/-- Settles O52: `P1 < P10 < P100` puts each divided pitch in one region. -/
theorem bandSelectionRegions : Obligations.BandSelectionRegions :=
  fun c ref t10 t100 ep _ => ⟨banded_above_p100 c ref t10 t100 ep, banded_above_p10 c ref t10 t100 ep,
    banded_above_p1 c ref t10 t100 ep, banded_up_to_p1 c ref t10 t100 ep⟩

/-- A banded value is an s16, region by region (R164, R175). -/
theorem banded_inS16 (c : Config) {ref : Int} {t10 t100 : Table} (href : InS16 ref) (h10 : IsBandTable t10)
    (h100 : IsBandTable t100) (ep : U32) (dp : S16) : InS16 (banded c.toParams ref t10 t100 ep dp) := by
  have hl10 := lookup_band_inS16 c h10 ep
  have hl100 := lookup_band_inS16 c h100 ep
  obtain hp100 | hp100 := lt_or_ge c.p100.toInt dp.toInt
  · rw [banded_above_p100 c ref t10 t100 ep hp100]
    exact hl100
  obtain hp10 | hp10 := lt_or_ge c.p10.toInt dp.toInt
  · obtain ⟨h0, h1⟩ := weight_range hp10 hp100
    rw [banded_above_p10 c ref t10 t100 ep hp10 hp100]
    exact mix_inS16 hl10 hl100 h0 h1
  obtain hp1 | hp1 := lt_or_ge c.p1.toInt dp.toInt
  · obtain ⟨h0, h1⟩ := weight_range hp1 hp10
    rw [banded_above_p1 c ref t10 t100 ep hp1 hp10]
    exact mix_inS16 href hl10 h0 h1
  · rw [banded_up_to_p1 c ref t10 t100 ep hp1]
    exact href

/-! ### The continuity of the crossfade -/

section Boundaries

variable (c : Config) {ref : Int} {t10 t100 : Table} (ep : U32)

/-- At `P10`, the crossfade has reached the 10 Hz table or is one short of it (R176). -/
theorem banded_p10 (href : InS16 ref) (h10 : IsBandTable t10) :
    banded c.toParams ref t10 t100 ep c.p10 = lookup c.rom t10 c.bandBits ep ∨
      banded c.toParams ref t10 t100 ep c.p10 = lookup c.rom t10 c.bandBits ep - 1 := by
  obtain ⟨-, -, -, hp10, -⟩ := c.wellFormed
  rw [banded_above_p1 c ref t10 t100 ep hp10 le_rfl, (weight_eq_full_iff hp10 le_rfl).mpr rfl]
  exact mix_full_eq_or href (lookup_band_inS16 c h10 ep)

/-- At `P100`, the crossfade has reached the 100 Hz table or is one short of it (R176). -/
theorem banded_p100 (h10 : IsBandTable t10) (h100 : IsBandTable t100) :
    banded c.toParams ref t10 t100 ep c.p100 = lookup c.rom t100 c.bandBits ep ∨
      banded c.toParams ref t10 t100 ep c.p100 = lookup c.rom t100 c.bandBits ep - 1 := by
  obtain ⟨-, -, -, -, hp100, -⟩ := c.wellFormed
  rw [banded_above_p10 c ref t10 t100 ep hp100 le_rfl, (weight_eq_full_iff hp100 le_rfl).mpr rfl]
  exact mix_full_eq_or (lookup_band_inS16 c h10 ep) (lookup_band_inS16 c h100 ep)

variable {x : S16}

/-- One pitch step above `P1`, the crossfade is one step's share from the reference shape (R176). -/
theorem abs_banded_succ_p1_sub_le (hx : x.toInt = c.p1.toInt + 1) :
    |banded c.toParams ref t10 t100 ep x - ref| ≤
      (|lookup c.rom t10 c.bandBits ep - ref| * (65535 / (c.p10.toInt - c.p1.toInt)) + 65535) / 65536 := by
  obtain ⟨-, -, -, hp10, -⟩ := c.wellFormed
  rw [banded_above_p1 c ref t10 t100 ep (by omega) (by omega), hx, weight_succ]
  exact abs_mix_sub_le _ _ (Int.ediv_nonneg (by decide) (by omega))

/-- One pitch step above `P10`, the crossfade is one step's share from the 10 Hz table (R176). -/
theorem abs_banded_succ_p10_sub_le (hx : x.toInt = c.p10.toInt + 1) :
    |banded c.toParams ref t10 t100 ep x - lookup c.rom t10 c.bandBits ep| ≤
      (|lookup c.rom t100 c.bandBits ep - lookup c.rom t10 c.bandBits ep| *
        (65535 / (c.p100.toInt - c.p10.toInt)) + 65535) / 65536 := by
  obtain ⟨-, -, -, -, hp100, -⟩ := c.wellFormed
  rw [banded_above_p10 c ref t10 t100 ep (by omega) (by omega), hx, weight_succ]
  exact abs_mix_sub_le _ _ (Int.ediv_nonneg (by decide) (by omega))

end Boundaries

/-- A distance from a value that is one short is at most one larger. -/
theorem abs_sub_le_add_one {v l u B : Int} (hu : u = l ∨ u = l - 1) (h : |v - l| ≤ B) : |v - u| ≤ B + 1 := by
  rw [abs_le] at h ⊢
  omega

/-- The three banded shapes, each with an s16 reference shape and two band tables (R166 to R170). -/
theorem bandedRow_wf (p : Params) (ep : U32) {row : Int × Table × Table}
    (h : row ∈ [(triRef p ep, .tri10, .tri100), (rampRef p ep, .ramp10, .ramp100), (trapRef p ep, .trap10, .trap100)]) :
    InS16 row.1 ∧ IsBandTable row.2.1 ∧ IsBandTable row.2.2 := by
  simp only [List.mem_cons, List.not_mem_nil, or_false] at h
  obtain rfl | rfl | rfl := h
  · exact ⟨triRef_inS16 p ep, ⟨nofun, nofun⟩, ⟨nofun, nofun⟩⟩
  · exact ⟨rampRef_inS16 p ep, ⟨nofun, nofun⟩, ⟨nofun, nofun⟩⟩
  · exact ⟨trapRef_inS16 p ep, ⟨nofun, nofun⟩, ⟨nofun, nofun⟩⟩

/-- Settles O58: each region starts within one pitch step's share of the value it crossfades from, which the region below has
reached or is one short of. -/
theorem crossfadeContinuity : Obligations.CrossfadeContinuity := by
  intro c ep row hrow V l10 l100 w1 w2
  obtain ⟨href, h10, h100⟩ := bandedRow_wf c.toParams ep hrow
  have hVp1 : V c.p1 = row.1 := banded_up_to_p1 c _ _ _ ep le_rfl
  have hVp10 : V c.p10 = l10 ∨ V c.p10 = l10 - 1 := banded_p10 c ep href h10
  have hVp100 : V c.p100 = l100 ∨ V c.p100 = l100 - 1 := banded_p100 c ep h10 h100
  refine ⟨hVp1, hVp10, hVp100, fun x x' hx => ⟨?_, ?_, ?_⟩⟩
  · rintro rfl
    rw [hVp1]
    exact abs_banded_succ_p1_sub_le c ep hx
  · rintro rfl
    exact abs_sub_le_add_one hVp10 (abs_banded_succ_p10_sub_le c ep hx)
  · rintro rfl
    have hVx' : V x' = l100 := banded_above_p100 c _ _ _ ep (by omega)
    rw [hVx', abs_le]
    omega

/-! ### The sample -/

/-- The effective phase, as a number (R151). -/
theorem toNat_effectivePhase (b : Bank) :
    (effectivePhase b).toNat = (b.initialPhase.toNat + b.dividedPhase.toNat) % 2 ^ 32 :=
  BitVec.toNat_add ..

/-- `FORCE_SAW` selects Saw (R152). -/
theorem selectedShape_of_forceSaw {p : Params} (h : p.forceSaw = true) (b : Bank) : selectedShape p b = .saw := if_pos h

/-- Without `FORCE_SAW` the register selects the shape (R152). -/
theorem selectedShape_of_not_forceSaw {p : Params} (h : p.forceSaw = false) (b : Bank) : selectedShape p b = b.shape := by
  rw [selectedShape, h, if_neg Bool.false_ne_true]

/-- Settles O45: the sample is a function of the selected shape, the effective phase, `DIVIDED_PITCH` and `LEVEL`. -/
theorem sampleValueReadsOnlyItsInputs : Obligations.SampleValueReadsOnlyItsInputs := by
  intro c b b' hshape hphase hpitch hlevel
  have hep : effectivePhase b = effectivePhase b' :=
    BitVec.eq_of_toNat_eq (by rw [toNat_effectivePhase, hphase, toNat_effectivePhase])
  rw [sampleValue, selectedShape, hshape, hep, hpitch, hlevel, sampleValue, selectedShape]

/-- The code of the shape a legal code stands for is that code (R90). -/
theorem exists_shapeOfCode {code : BitVec 3} (h : code.toNat < 5) :
    ∃ sh, shapeOfCode code = some sh ∧ shapeCode sh = code := by
  revert code
  decide

/-- SET_SHAPE with a code that stands for a shape writes that shape (R195). -/
theorem exec_setShape_of_code {s : State} {ch : Channel} {b : Bank} {code : BitVec 3} {sh : Shape}
    (hs : s.status.fault = false) (hb : s.bank? ch = some b) (hsh : shapeOfCode code = some sh) :
    exec (.setShape ch code) s = .next ((s.setBank ch { b with shape := sh }).respond 0) :=
  (onChannel_run hs hb).trans (by rw [hsh]; rfl)

/-- READ_REG with a number that names a register answers that register (R199). -/
theorem exec_readReg_of_number {s : State} {ch : Channel} {b : Bank} {n : BitVec 4} {r : RegName}
    (hs : s.status.fault = false) (hb : s.bank? ch = some b) (hr : regOfNumber n = some r) :
    exec (.readReg ch n) s = .next (s.respond (readRegister b r)) :=
  (onChannel_run hs hb).trans (by rw [hr])

/-- Settles O46: the parameter selects the shape that is computed, and the register goes its own way. -/
theorem forceSawOverridesTheShape : Obligations.ForceSawOverridesTheShape := by
  intro s ch b hs hb
  refine ⟨fun h => ?_, fun h => ?_, fun code hcode => ?_⟩
  · rw [sampleValue, selectedShape_of_forceSaw h]
  · rw [sampleValue, selectedShape_of_not_forceSaw h]
  · obtain ⟨sh, hsh, rfl⟩ := exists_shapeOfCode hcode
    have hbank := (State.bank?_respond _ 0 ch).trans (State.bank?_setBank_self (b' := { b with shape := sh }) hb)
    refine ⟨_, exec_setShape_of_code hs hb hsh, exec_readReg_of_number (r := .shape) ?_ hbank rfl⟩
    exact hs

/-- At level 0 the value of every shape is 0 (R173). -/
theorem shapeValue_level_zero (p : Params) (sh : Shape) (ep : U32) (dp : S16) : shapeValue p sh ep dp 0 = 0 := by
  cases sh with
  | saw => rw [shapeValue, scale_level_zero]; rfl
  | triangle | ramp | trapezoid | sine => exact scale_level_zero _

/-- Settles O55, shape by shape. -/
theorem levelZeroIsSilent : Obligations.LevelZeroIsSilent := by
  intro c b h
  rw [sampleValue, h, shapeValue_level_zero]

/-- Every shape but Saw scales an s16 (R165 to R170). -/
theorem exists_shapeValue_eq_scale (c : Config) {sh : Shape} (hsaw : sh ≠ .saw) (ep : U32) (dp : S16) (level : U16) :
    ∃ v, InS16 v ∧ shapeValue c.toParams sh ep dp level = scale v level := by
  cases sh with
  | saw => exact absurd rfl hsaw
  | sine => exact ⟨_, lookup_inS16 c (t := .sine) (by decide) rfl ep, rfl⟩
  | triangle =>
    exact ⟨_, banded_inS16 c (triRef_inS16 _ ep) (t10 := .tri10) (by decide) (t100 := .tri100) (by decide) ep dp, rfl⟩
  | ramp =>
    exact ⟨_, banded_inS16 c (rampRef_inS16 _ ep) (t10 := .ramp10) (by decide) (t100 := .ramp100) (by decide) ep dp, rfl⟩
  | trapezoid =>
    exact ⟨_, banded_inS16 c (trapRef_inS16 _ ep) (t10 := .trap10) (by decide) (t100 := .trap100) (by decide) ep dp, rfl⟩

/-- Settles O57: Saw is wrapped to an s16, and every other shape is scaled. -/
theorem sampleRange : Obligations.SampleRange := by
  intro c b
  by_cases hsaw : selectedShape c.toParams b = .saw
  · have hrange : InS16 (sampleValue c.toParams b) := by
      rw [sampleValue, hsaw]
      exact wrap16s_inS16 _
    exact ⟨hrange.1, hrange.2, fun _ h => absurd hsaw h⟩
  · obtain ⟨v, hv, hvalue⟩ := exists_shapeValue_eq_scale c hsaw (effectivePhase b) b.dividedPitch b.level
    have hsample : sampleValue c.toParams b = scale v b.level := hvalue
    obtain ⟨hmin, hmax⟩ := scale_range hv b.level
    rw [hsample]
    exact ⟨hmin, by omega, fun _ _ => hmax⟩

end Sys2Proof.Machine

/-! PROOFS. The control and parameter commands of 43_control_commands.md: INIT (R191) and the four setters (R193). -/

namespace Sys2Proof.Machine

/-- A command other than STEP that has an effect on its channel's bank writes that bank and responds once. -/
theorem exec_of_bankEffect_ok {i : Instr} {s : State} {b b' : Bank} {d : U32} (hs : s.status.fault = false)
    (hb : s.bank? i.channel = some b) (hi : i.opcode ≠ .step) (he : bankEffect s.cfg.toParams i b = .ok (b', d)) :
    exec i s = .next ((s.setBank i.channel b').respond d) := by
  rw [exec_live hs hb fun ho => absurd ho hi, he, State.apply]

/-- Settles O28: the bank INIT leaves is `initBank` of the configuration, whatever the bank was before. -/
theorem initWritesEveryRegister : Obligations.InitWritesEveryRegister := by
  intro s ch b hs hb
  have he : bankEffect s.cfg.toParams (.init ch) b = .ok (initBank s.cfg.toParams, 0) := rfl
  exact exec_of_bankEffect_ok hs hb (nomatch ·) he

/-- Settles O29, setter by setter; only SET_SHAPE has codes it refuses, and the codes below 5 stand for a shape. -/
theorem settersWriteOneRegister : Obligations.SettersWriteOneRegister := by
  intro s ch b hs hb
  refine ⟨fun code hcode => ?setShape, fun v => ?setLevel, fun v => ?setInitialPhase, fun v => ?setDividedPitch⟩
  case setShape =>
    obtain ⟨sh, hsh, hcode⟩ := exists_shapeOfCode hcode
    exact ⟨sh, hcode, exec_setShape_of_code hs hb hsh⟩
  case setLevel => exact exec_of_bankEffect_ok (i := .setLevel ch v) hs hb (nomatch ·) rfl
  case setInitialPhase => exact exec_of_bankEffect_ok (i := .setInitialPhase ch v) hs hb (nomatch ·) rfl
  case setDividedPitch => exact exec_of_bankEffect_ok (i := .setDividedPitch ch v) hs hb (nomatch ·) rfl

end Sys2Proof.Machine

/-! PROOFS. The faults of 60_exceptions.md: the words that raise ILLEGAL_COMMAND (R222, R227), fault entry (R224), and the halted
block, which no command leaves (R224 to R226). -/

namespace Sys2Proof.Machine

open Safety

/-! ### Fault entry -/

/-- A command whose rule raises a fault on its channel's bank takes fault entry (R224). -/
theorem exec_of_bankEffect_error {i : Instr} {s : State} {b : Bank} {f : Cause} (hs : s.status.fault = false)
    (hb : s.bank? i.channel = some b) (he : bankEffect s.cfg.toParams i b = .error f) : exec i s = .next (s.raise f) := by
  have hnotStep : i.opcode ≠ .step := by
    intro ho
    cases i with
    | step ch => exact absurd he (nomatch ·)
    | _ => exact absurd ho (nomatch ·)
  rw [exec_live hs hb fun ho => absurd ho hnotStep, he, State.apply]

/-- A live block that a command leaves halted has taken fault entry, and nothing else has happened to it (R224). -/
theorem exec_fault_eq_raise {i : Instr} {s t : State} (hs : s.status.fault = false) (h : exec i s = .next t)
    (ht : t.status.fault = true) : ∃ f, t = s.raise f := by
  obtain ⟨hf, -⟩ | ⟨-, -, rfl⟩ | ⟨-, b, -, -, rfl⟩ := exec_next_cases h
  · exact absurd (hs.symm.trans hf) (by decide)
  · exact ⟨_, rfl⟩
  · cases he : bankEffect s.cfg.toParams i b with
    | error f => exact ⟨f, rfl⟩
    | ok bd => exact absurd (hs.symm.trans (by simpa [he, State.apply] using ht)) (by decide)

/-- A live block that a step leaves halted has taken a word and fault entry, and nothing else has happened to it (R224). -/
theorem step_fault_eq_raise {s t : State} (hs : s.status.fault = false) (h : step s = .next t)
    (ht : t.status.fault = true) : ∃ f, t = ({ s with commands := s.commands.tail } : State).raise f := by
  cases hc : s.commands with
  | nil =>
    obtain rfl := Host.Outcome.next.inj ((step_nil hc).symm.trans h)
    exact absurd (hs.symm.trans ht) (by decide)
  | cons w rest =>
    obtain ⟨hf, -⟩ | ⟨-, -, hstep⟩ | ⟨-, i, -, hstep⟩ := step_cons hc
    · exact absurd (hs.symm.trans hf) (by decide)
    · exact ⟨_, Host.Outcome.next.inj (h.symm.trans hstep)⟩
    · exact exec_fault_eq_raise (s := { s with commands := rest }) hs (hstep.symm.trans h) ht

/-! ### The halted block -/

/-- The registers of the block, which are its banks and its status (R30), are the same in both states. -/
abbrev SameRegisters (s t : State) : Prop := t.banks = s.banks ∧ t.status = s.status

/-- A halted block takes a word for no more than its answer (R224). -/
theorem step_halted {s : State} {w : Command} {rest : List Command} (hs : s.status.fault = true)
    (hc : s.commands = w :: rest) : step s = .next ({ s with commands := rest } : State).haltedResponse := by
  obtain ⟨-, hstep⟩ | ⟨hf, -⟩ | ⟨hf, -⟩ := step_cons hc
  · exact hstep
  · exact absurd (hs.symm.trans hf) (by decide)
  · exact absurd (hs.symm.trans hf) (by decide)

/-- No step of a halted block changes a register (R224, R236). -/
theorem step_halted_sameRegisters {s : State} (hs : s.status.fault = true) : ∃ t, step s = .next t ∧ SameRegisters s t := by
  cases hc : s.commands with
  | nil => exact ⟨s, step_nil hc, rfl, rfl⟩
  | cons w rest => exact ⟨_, step_halted hs hc, rfl, rfl⟩

/-- No run of a halted block changes a register or stops (R225, R226). -/
theorem run_halted_sameRegisters {s : State} (hs : s.status.fault = true) (k : Nat) :
    ∃ t, Host.Core.run Sys2Proof.core k s = .next t ∧ SameRegisters s t := by
  refine run_induction (P := SameRegisters s) (fun t ⟨hbanks, hstatus⟩ => ?_) k ⟨rfl, rfl⟩
  obtain ⟨u, hu, hbanks', hstatus'⟩ := step_halted_sameRegisters (hstatus ▸ hs)
  exact ⟨u, hu, hbanks'.trans hbanks, hstatus'.trans hstatus⟩

/-- Settles O20: the step that halts a live block is fault entry, and a halted block only answers. -/
theorem faultEntryHaltsTheBlock : Obligations.FaultEntryHaltsTheBlock := by
  refine ⟨fun s t hs h ht => ?_, fun s w rest hs hc => step_halted hs hc⟩
  obtain ⟨f, rfl⟩ := step_fault_eq_raise hs h ht
  refine ⟨rfl, ?_, rfl⟩
  cases f with
  | illegalCommand => exact .inl rfl
  | dividerZero => exact .inr rfl

/-- Settles O21: neither a command nor a run changes the status of a halted block, and power-on gives the status of reset. -/
theorem onlyPowerOnClearsAFault : Obligations.OnlyPowerOnClearsAFault := by
  refine ⟨fun s i hs => ⟨_, exec_halted hs, rfl⟩, fun s k hs => ?_, fun s => State.powerOn_fault s.cfg⟩
  obtain ⟨t, hrun, -, hstatus⟩ := run_halted_sameRegisters hs k
  exact ⟨t, hrun, hstatus⟩

/-- Settles O22: fault entry keeps the banks, and so does every run of the halted block it leaves. -/
theorem faultsArePrecise : Obligations.FaultsArePrecise := by
  intro s t hs h ht k
  obtain ⟨f, rfl⟩ := step_fault_eq_raise hs h ht
  exact run_halted_sameRegisters ht k

/-! ### The words that raise ILLEGAL_COMMAND -/

/-- The commands whose own rule raises ILLEGAL_COMMAND: a divider that does not fit, a reserved shape code, a reserved register
number (R139, R195, R199). -/
theorem bankEffect_illegalCommand_iff {p : Params} {i : Instr} {b : Bank} :
    bankEffect p i b = .error .illegalCommand ↔
      i.operandFits p = false ∨ (i.opcode ≠ .setDivider ∧ i.operandLegal = false) := by
  cases i with
  | setDivider ch v =>
    have hclear : reservedClear p .immdiv v = true ↔ v.toNat < 2 ^ p.dividerBits := reservedClear_iff
    by_cases hfit : v.toNat < 2 ^ p.dividerBits
    · simp only [bankEffect, hclear.mpr hfit, if_true]
      split <;> simp [Instr.operandFits, Instr.opcode, hfit]
    · simp [bankEffect, hclear, Instr.operandFits, hfit]
  | setShape ch code =>
    have hcode : shapeOfCode code = none ↔ 5 ≤ code.toNat := by revert code; decide
    cases hsh : shapeOfCode code <;> simp_all [bankEffect, Instr.operandFits, Instr.opcode, Instr.operandLegal]
  | readReg ch n =>
    have hnumber : regOfNumber n = none ↔ 10 ≤ n.toNat := by revert n; decide
    cases hr : regOfNumber n <;> simp_all [bankEffect, Instr.operandFits, Instr.opcode, Instr.operandLegal]
  | nop | init | setPitch | setLevel | setInitialPhase | setDividedPitch | step | sample =>
    simp [bankEffect, Instr.operandFits, Instr.operandLegal]

/-- The operand of a decoded command fits its form (R84, R88). -/
theorem operandFits_of_decode_ok {p : Params} {w : Command} {i : Instr} (h : decode p w = .ok i) :
    i.operandFits p = true := by
  obtain ⟨o, -, -, hfit, rfl⟩ := decode_ok_iff.mp h
  cases o with
  | setDivider =>
    rw [assembleInstr, immdivOperand_of_fits hfit]
    exact decide_eq_true hfit
  | nop | init | setPitch | setShape | setLevel | setInitialPhase | setDividedPitch | step | sample | readReg => rfl

/-- The words of SET_SHAPE with a reserved code and of READ_REG with a reserved number, among those that decode (R195, R199). -/
theorem decode_reservedOperand_iff {p : Params} {w : Command} {i : Instr} (h : decode p w = .ok i) :
    i.opcode ≠ .setDivider ∧ i.operandLegal = false ↔
      (w.toNat / 2 ^ 36 = 3 ∧ 5 ≤ w.toNat % 2 ^ 32 % 8) ∨ (w.toNat / 2 ^ 36 = 10 ∧ 10 ≤ w.toNat % 2 ^ 32 % 16) := by
  obtain ⟨o, ho, -, -, rfl⟩ := decode_ok_iff.mp h
  rw [← toNat_commandOp_eq_div, ← toNat_commandData_eq_mod, ← opcodeBits_of_opcodeOfBits ho]
  cases o with
  | setShape | readReg => simp [assembleInstr, opcodeBits, Instr.opcode, Instr.operandLegal, toNat_bits]
  | nop | init | setPitch | setLevel | setDivider | setInitialPhase | setDividedPitch | step | sample =>
    simp [assembleInstr, opcodeBits, Instr.opcode, Instr.operandLegal]

/-- A word that decodes is one of R222's exactly when the rule of its command raises ILLEGAL_COMMAND, on any bank. -/
theorem illegalWord_iff_bankEffect {p : Params} {w : Command} {i : Instr} (h : decode p w = .ok i) (b : Bank) :
    IllegalWord p w ↔ bankEffect p i b = .error .illegalCommand := by
  rw [illegalWord_iff, bankEffect_illegalCommand_iff, ← decode_reservedOperand_iff h]
  simp [h, operandFits_of_decode_ok h]

/-- A live block answers each word of R222 with the entry of ILLEGAL_COMMAND (R224). -/
theorem step_of_illegalWord {s : State} {w : Command} {rest : List Command} (hs : s.status.fault = false)
    (hc : s.commands = w :: rest) (hw : IllegalWord s.cfg.toParams w) :
    step s = .next (afterFault { s with commands := rest } 1) := by
  obtain ⟨hf, -⟩ | ⟨-, -, hstep⟩ | ⟨-, i, hi, hstep⟩ := step_cons hc
  · exact absurd (hs.symm.trans hf) (by decide)
  · exact hstep
  · rw [hstep]
    cases hb : ({ s with commands := rest } : State).bank? i.channel with
    | none => exact exec_missing hs hb
    | some b => exact exec_of_bankEffect_error (s := { s with commands := rest }) hs hb ((illegalWord_iff_bankEffect hi b).mp hw)

/-- A command of a live channel that halts the block with cause 1 has ILLEGAL_COMMAND for its effect (R221, R224). -/
theorem bankEffect_of_exec_cause_one {i : Instr} {s t : State} {b : Bank} (hs : s.status.fault = false)
    (hb : s.bank? i.channel = some b) (h : exec i s = .next t) (ht : t.status.fault = true)
    (hcause : t.status.cause = 1) : bankEffect s.cfg.toParams i b = .error .illegalCommand := by
  obtain ⟨hf, -⟩ | ⟨-, hnone, -⟩ | ⟨-, a, ha, -, rfl⟩ := exec_next_cases h
  · exact absurd (hs.symm.trans hf) (by decide)
  · exact absurd (hb.symm.trans hnone) (by simp)
  · obtain rfl : a = b := Option.some.inj (ha.symm.trans hb)
    cases he : bankEffect s.cfg.toParams i a with
    | ok bd => exact absurd (hs.symm.trans (by simpa [he, State.apply] using ht)) (by decide)
    | error f =>
      cases f with
      | illegalCommand => rfl
      | dividerZero => exact absurd hcause (by simp [he, State.apply, causeCode])

/-- Settles O17: a word that the decoder refuses is listed, and one that decodes is listed exactly when its command's rule raises
ILLEGAL_COMMAND. -/
theorem illegalCommandExactlyWhenListed : Obligations.IllegalCommandExactlyWhenListed := by
  intro s t w rest hinv hs hc h
  constructor
  · rintro ⟨ht, hcause⟩
    obtain ⟨hlen, -, -⟩ := hinv
    obtain ⟨hf, -⟩ | ⟨-, he, -⟩ | ⟨-, i, hi, hstep⟩ := step_cons hc
    · exact absurd (hs.symm.trans hf) (by decide)
    · exact illegalWord_iff.mpr (.inl he)
    · obtain ⟨b, hb⟩ := exists_bank_of_decode_ok hlen hi
      rw [illegalWord_iff_bankEffect hi b]
      exact bankEffect_of_exec_cause_one (s := { s with commands := rest }) hs hb (hstep.symm.trans h) ht hcause
  · intro hw
    obtain rfl := Host.Outcome.next.inj ((step_of_illegalWord hs hc hw).symm.trans h)
    exact ⟨rfl, rfl⟩

/-- Settles O19: a listed word takes the one entry of ILLEGAL_COMMAND, the channel is checked before the value of SET_DIVIDER, and
a halted block keeps its status. -/
theorem firstFaultIsTheOneReported : Obligations.FirstFaultIsTheOneReported := by
  refine ⟨fun s w rest hs hc hw t h => ?_, fun s ch hs hch => ?_, fun s t hs h => ?_⟩
  · obtain rfl := Host.Outcome.next.inj ((step_of_illegalWord hs hc hw).symm.trans h)
    exact ⟨rfl, rfl⟩
  · exact exec_missing hs (State.bank?_missing hch)
  · obtain ⟨u, hu, -, hstatus⟩ := step_halted_sameRegisters hs
    obtain rfl := Host.Outcome.next.inj (hu.symm.trans h)
    exact hstatus

end Sys2Proof.Machine

/-! PROOFS. Reset of 70_reset_and_hazards.md: the reset values (R251), power-on as INIT on every channel (R250), and how the two
differ (R253). -/

namespace Sys2Proof.Machine

/-! ### The banks after power-on -/

/-- Power-on leaves no bank but INIT's (R250). -/
theorem State.eq_initBank_of_mem_powerOn {c : Config} {b : Bank} (h : b ∈ (State.powerOn c).banks) :
    b = initBank c.toParams :=
  List.eq_of_mem_replicate h

/-- After power-on every channel that exists reads INIT's bank (R250). -/
theorem State.bank?_powerOn {c : Config} {ch : Channel} (h : ch.toNat < c.nChannels) :
    (State.powerOn c).bank? ch = some (initBank c.toParams) :=
  State.bank?_eq_some.mpr ⟨h, List.getElem?_replicate_of_lt h⟩

/-! ### INIT on a live block -/

/-- INIT of an existing channel writes INIT's values in its bank and answers OK (R191). -/
theorem exec_init_live {s : State} {ch : Channel} {b : Bank} (hs : s.status.fault = false) (hb : s.bank? ch = some b) :
    exec (.init ch) s = .next ((s.setBank ch (initBank s.cfg.toParams)).respond 0) :=
  exec_of_bankEffect_ok (i := .init ch) hs hb (nomatch ·) rfl

/-- The channel of an INIT holds INIT's bank (R191). -/
theorem bank?_of_exec_init {s t : State} {ch : Channel} {b : Bank} (hs : s.status.fault = false)
    (hb : s.bank? ch = some b) (h : exec (.init ch) s = .next t) : t.bank? ch = some (initBank s.cfg.toParams) := by
  obtain rfl := Host.Outcome.next.inj ((exec_init_live hs hb).symm.trans h)
  exact State.bank?_setBank_self hb

/-- INIT leaves the bank of every channel but its own (R192, R71). -/
theorem bank?_of_exec_init_other {s t : State} {ch c : Channel} {b : Bank} (hs : s.status.fault = false)
    (hb : s.bank? ch = some b) (h : exec (.init ch) s = .next t) (hc : c ≠ ch) : t.bank? c = s.bank? c := by
  obtain rfl := Host.Outcome.next.inj ((exec_init_live hs hb).symm.trans h)
  exact State.bank?_setBank_respond_other hc

/-! ### The first command -/

/-- A live block takes a presented word that decodes and runs its command on the state as it was before (R89). -/
theorem step_present_of_decode_ok {s : State} {w : Command} {i : Instr} (hs : s.status.fault = false)
    (hi : decode s.cfg.toParams w = .ok i) : step (s.present w) = exec i s := by
  obtain ⟨hf, -⟩ | ⟨-, ⟨e, he⟩, -⟩ | ⟨-, j, hj, hstep⟩ := step_cons (State.present_commands s w)
  · exact absurd (hs.symm.trans hf) (by decide)
  · exact absurd (hi.symm.trans he) (nomatch ·)
  · obtain rfl : i = j := Except.ok.inj (hi.symm.trans hj)
    exact hstep

/-! ### The statements -/

/-- Settles O15: INIT leaves in its channel the bank that power-on leaves in every channel, and a block after power-on is live. -/
theorem powerOnIsInitOnEveryChannel : Obligations.PowerOnIsInitOnEveryChannel := by
  intro s
  refine ⟨fun ch hch => ⟨_, State.bank?_powerOn hch, ?_⟩, rfl, State.powerOn_cfg s.cfg, fun w i hi => ?_⟩
  · rintro u t hcfg hu ⟨b', hb'⟩ h
    exact hcfg ▸ bank?_of_exec_init hu hb' h
  · exact step_present_of_decode_ok (s := s.powerCycle) (State.powerOn_fault s.cfg) hi

/-- Settles O14: there are `N_CHANNELS` banks, each of them INIT's, whose registers hold the values of the table. -/
theorem resetValueOfEveryPiece : Obligations.ResetValueOfEveryPiece := by
  refine fun c => ⟨List.length_replicate, fun b hb => ?_, rfl, congrArg (·.rom) (State.powerOn_cfg c)⟩
  obtain rfl := State.eq_initBank_of_mem_powerOn hb
  and_intros <;> rfl

/-- Settles O16: a live INIT writes its own channel's bank only, a halted one only answers, and power-on gives every bank INIT's
values and a live status. -/
theorem initAndResetDiffer : Obligations.InitAndResetDiffer := by
  refine ⟨fun s t ch c b hs hb h => ?live, fun s ch hs => ?halted, fun s => ?reset⟩
  case live => exact ⟨bank?_of_exec_init hs hb h, bank?_of_exec_init_other hs hb h⟩
  case halted => exact ⟨_, exec_halted hs, State.haltedResponse_status s, State.haltedResponse_banks s⟩
  case reset => exact ⟨State.powerOn_fault s.cfg, fun b hb => State.eq_initBank_of_mem_powerOn hb⟩

end Sys2Proof.Machine

/-! PROOFS. The encoder and decoder of 30_encoding.md are inverse to each other (R81 to R88), and the assembler answers only
well-formed commands (R92, R93). -/

namespace Sys2Proof

open Machine

/-! ### The operand in the `DATA` field -/

/-- The low bits of a zero-extended operand are the operand (R84). -/
theorem bits_zext32 {n : Nat} (v : BitVec n) (hn : n ≤ 32) : bits (zext32 v) 0 n = v := by
  apply BitVec.eq_of_toNat_eq
  rw [toNat_bits, pow_zero, Nat.div_one, Nat.mod_eq_of_lt (Laws.zext32_lt v hn), zext32, BitVec.toNat_setWidth_of_le hn]

/-- A `DATA` field without a bit above its operand is the operand zero-extended (R84, R88). -/
theorem zext32_bits {n : Nat} {d : U32} (h : d.toNat < 2 ^ n) : zext32 (bits d 0 n) = d := by
  apply BitVec.eq_of_toNat_eq
  rw [zext32, BitVec.toNat_setWidth, toNat_bits, pow_zero, Nat.div_one, Nat.mod_eq_of_lt h, Nat.mod_eq_of_lt d.isLt]

/-- A `DATA` field whose form has no operand is 0 (R84, R88). -/
theorem eq_zero_of_toNat_lt_one {d : U32} (h : d.toNat < 2 ^ 0) : 0 = d :=
  BitVec.eq_of_toNat_eq (Nat.lt_one_iff.mp h).symm

/-- The command assembled from the operand of a command is that command (R84, R85). -/
theorem assembleInstr_operandData {p : Params} {i : Instr} (h : i.operandFits p = true) :
    assembleInstr p i.opcode i.channel (operandData i) = i := by
  cases i with
  | nop | init | step | sample | setInitialPhase => rfl
  | setPitch ch v => exact congrArg (Instr.setPitch ch) (bits_zext32 v (by decide))
  | setShape ch v => exact congrArg (Instr.setShape ch) (bits_zext32 v (by decide))
  | setLevel ch v => exact congrArg (Instr.setLevel ch) (bits_zext32 v (by decide))
  | setDividedPitch ch v => exact congrArg (Instr.setDividedPitch ch) (bits_zext32 v (by decide))
  | readReg ch v => exact congrArg (Instr.readReg ch) (bits_zext32 v (by decide))
  | setDivider ch v => exact congrArg (Instr.setDivider ch) (immdivOperand_of_fits (of_decide_eq_true h))

/-- The operand of the command assembled from a `DATA` field without a reserved bit is that field (R84, R88). -/
theorem operandData_assembleInstr {p : Params} {o : Opcode} {ch : Channel} {d : U32}
    (h : d.toNat < 2 ^ formWidth p (opcodeForm o)) : operandData (assembleInstr p o ch d) = d := by
  cases o with
  | nop | init | step | sample => exact eq_zero_of_toNat_lt_one h
  | setPitch | setShape | setLevel | setDividedPitch | readReg => exact zext32_bits h
  | setDivider => exact immdivOperand_of_fits h
  | setInitialPhase => rfl

/-- The command assembled for an opcode has that opcode (R85). -/
@[simp] theorem assembleInstr_opcode (p : Params) (o : Opcode) (ch : Channel) (d : U32) :
    (assembleInstr p o ch d).opcode = o := by cases o <;> rfl

/-- No encoded command has a reserved bit (R84, R88). -/
theorem encodeFields_statement (i : Instr) : Laws.EncodeFields.Statement i := by
  cases i with
  | nop ch => exact Laws.EncodeFields.nop ch
  | init ch => exact Laws.EncodeFields.init ch
  | setPitch ch v => exact Laws.EncodeFields.setPitch ch v
  | setShape ch v => exact Laws.EncodeFields.setShape ch v
  | setLevel ch v => exact Laws.EncodeFields.setLevel ch v
  | setDivider ch v => exact Laws.EncodeFields.setDivider ch v
  | setInitialPhase ch v => exact Laws.EncodeFields.setInitialPhase ch v
  | setDividedPitch ch v => exact Laws.EncodeFields.setDividedPitch ch v
  | step ch => exact Laws.EncodeFields.step ch
  | sample ch => exact Laws.EncodeFields.sample ch
  | readReg ch v => exact Laws.EncodeFields.readReg ch v

/-- Settles O1: the decoder finds the three fields the encoder wrote, and they are the fields of one command. -/
theorem encodeThenDecodeGivesTheCommand : Obligations.EncodeThenDecodeGivesTheCommand := by
  intro p i hwf
  obtain ⟨hch, hfits⟩ := hwf
  obtain ⟨hop, hchannel, hclear⟩ := encodeFields_statement i p ⟨hch, hfits⟩
  obtain ⟨-, -, hdata⟩ := Laws.encode_fields i
  refine decode_ok_iff.mpr ⟨i.opcode, ?_, hchannel ▸ hch, hclear, ?_⟩
  · rw [hop, opcodeOfBits_opcodeBits]
  · rw [hchannel, hdata, assembleInstr_operandData hfits]

/-- Settles O2: a word is its three fields, and the command decoded from them has each of them for its own. -/
theorem decodeThenEncodeGivesTheWord : Obligations.DecodeThenEncodeGivesTheWord := by
  intro p w i h
  have hfits := operandFits_of_decode_ok h
  obtain ⟨o, ho, hch, hclear, rfl⟩ := decode_ok_iff.mp h
  refine ⟨⟨by rwa [assembleInstr_channel], hfits⟩, ?_⟩
  rw [encode, assembleInstr_opcode, assembleInstr_channel, operandData_assembleInstr hclear, opcodeBits_of_opcodeOfBits ho,
    ← command_fields]

end Sys2Proof

namespace Sys2Proof.Machine

/-! ### The assembler -/

/-- An unsigned operand is below its bound (R92). -/
theorem lt_of_asmUnsigned {bound v : Nat} {x : AsmOperand} (h : asmUnsigned bound x = some v) : v < bound := by
  cases x with
  | dec n =>
    obtain ⟨⟨h0, hlt⟩, rfl⟩ : (0 ≤ n ∧ n < bound) ∧ n.toNat = v := by simpa [asmUnsigned] using h
    omega
  | hex n =>
    obtain ⟨hlt, rfl⟩ : n < bound ∧ n = v := by simpa [asmUnsigned] using h
    exact hlt
  | none | shapeName | regName => exact absurd h (nomatch ·)

/-- A number below `bound`, kept to as many bits as it needs, is below `bound`. -/
theorem toNat_ofNat_lt {n w bound : Nat} (h : n < bound) : (BitVec.ofNat w n).toNat < bound :=
  (BitVec.toNat_ofNat n w ▸ Nat.mod_le _ _).trans_lt h

/-- A shape operand is never a reserved code (R90, R92). -/
theorem toNat_lt_of_asmShape {x : AsmOperand} {code : BitVec 3} (h : asmShape x = some code) : code.toNat < 5 := by
  cases x with
  | shapeName sh =>
    obtain rfl : shapeCode sh = code := Option.some.inj h
    exact Nat.lt_succ_of_le (shapeCode_le_four sh)
  | dec | hex =>
    obtain ⟨v, hv, rfl⟩ := Option.map_eq_some_iff.mp h
    exact toNat_ofNat_lt (lt_of_asmUnsigned hv)
  | none | regName => exact absurd h (nomatch ·)

/-- No register has a reserved number (R43). -/
theorem regNumber_lt_ten (r : RegName) : (regNumber r).toNat < 10 := by cases r <;> decide

/-- A register operand is never a reserved number (R43, R92). -/
theorem toNat_lt_of_asmReg {x : AsmOperand} {r : BitVec 4} (h : asmReg x = some r) : r.toNat < 10 := by
  cases x with
  | regName n =>
    obtain rfl : regNumber n = r := Option.some.inj h
    exact regNumber_lt_ten n
  | dec | hex =>
    obtain ⟨v, hv, rfl⟩ := Option.map_eq_some_iff.mp h
    exact toNat_ofNat_lt (lt_of_asmUnsigned hv)
  | none | shapeName => exact absurd h (nomatch ·)

/-- A command that the assembler may answer: well formed, and legal unless it is a SET_DIVIDER (R92). -/
abbrev Assemblable (p : Params) (i : Instr) : Prop :=
  i.WellFormed p ∧ (i.opcode ≠ .setDivider → i.operandLegal = true)

/-- The assembler takes existing channels only (R92). -/
theorem channel_lt_of_assemble {p : Params} {o : Opcode} {ch : Nat} {x : AsmOperand} {i : Instr}
    (h : assemble p o ch x = some i) : ch < p.nChannels ∧ ch < 16 := by
  by_contra hch
  have hbad : p.nChannels ≤ ch ∨ 16 ≤ ch := by omega
  simp [assemble, hbad] at h

/-- The assembler's answer has the opcode and the channel asked for, and its operand fits and is legal but for SET_DIVIDER. -/
theorem assemble_operand {p : Params} {o : Opcode} {ch : Nat} {x : AsmOperand} {i : Instr}
    (h : assemble p o ch x = some i) :
    i.opcode = o ∧ i.channel = BitVec.ofNat 4 ch ∧ i.operandFits p = true ∧
      (o ≠ .setDivider → i.operandLegal = true) := by
  obtain ⟨hch, hch16⟩ := channel_lt_of_assemble h
  have hgood : ¬ (p.nChannels ≤ ch ∨ 16 ≤ ch) := by omega
  simp only [assemble, if_neg hgood] at h
  cases o with
  | nop | init | step | sample =>
    obtain ⟨-, hi⟩ := Option.ite_none_right_eq_some.mp h
    obtain rfl := Option.some.inj hi
    exact ⟨rfl, rfl, rfl, fun _ => rfl⟩
  | setPitch | setDividedPitch | setLevel | setInitialPhase =>
    obtain ⟨v, -, rfl⟩ := Option.map_eq_some_iff.mp h
    exact ⟨rfl, rfl, rfl, fun _ => rfl⟩
  | setShape =>
    obtain ⟨code, hcode, rfl⟩ := Option.map_eq_some_iff.mp h
    exact ⟨rfl, rfl, rfl, fun _ => decide_eq_true (toNat_lt_of_asmShape hcode)⟩
  | readReg =>
    obtain ⟨r, hr, rfl⟩ := Option.map_eq_some_iff.mp h
    exact ⟨rfl, rfl, rfl, fun _ => decide_eq_true (toNat_lt_of_asmReg hr)⟩
  | setDivider =>
    obtain ⟨v, hv, rfl⟩ := Option.map_eq_some_iff.mp h
    exact ⟨rfl, rfl, decide_eq_true (toNat_ofNat_lt (lt_of_asmUnsigned hv)), fun hne => absurd rfl hne⟩

/-- A channel number below 16 is kept by its four bits (R81). -/
theorem toNat_channel {n : Nat} (h : n < 16) : (BitVec.ofNat 4 n).toNat = n := Nat.mod_eq_of_lt h

/-- The assembler answers only assemblable commands (R92). -/
theorem assemblable_of_assemble {p : Params} {o : Opcode} {ch : Nat} {x : AsmOperand} {i : Instr}
    (h : assemble p o ch x = some i) : Assemblable p i := by
  obtain ⟨hch, hch16⟩ := channel_lt_of_assemble h
  obtain ⟨rfl, hchannel, hfits, hlegal⟩ := assemble_operand h
  refine ⟨⟨?_, hfits⟩, hlegal⟩
  rwa [hchannel, toNat_channel hch16]

/-- A channel read from a line exists (R92). -/
theorem toNat_lt_of_readChannel {p : Params} {cs : List Char} {ch : Channel} (h : readChannel p cs = some ch) :
    ch.toNat < p.nChannels := by
  unfold readChannel at h
  split at h
  · obtain ⟨⟨hlt, -⟩, heq⟩ := Option.ite_none_right_eq_some.mp h
    obtain rfl := Option.some.inj heq
    exact toNat_ofNat_lt hlt
  · exact absurd h (nomatch ·)

/-- A line with a command's mnemonic stands for what the assembler answers on some operand (R92). -/
theorem exists_assemble_of_assembleCommand {p : Params} {o : Opcode} {parts : List (List Char)} {i : Instr}
    (h : assembleCommand p o parts = some i) : ∃ ch x, assemble p o ch x = some i := by
  unfold assembleCommand at h
  split at h
  · obtain ⟨n, -, hi⟩ := Option.bind_eq_some_iff.mp h
    exact ⟨n, _, hi⟩
  · obtain ⟨n, -, hn⟩ := Option.bind_eq_some_iff.mp h
    obtain ⟨v, -, hi⟩ := Option.bind_eq_some_iff.mp hn
    exact ⟨n, v, hi⟩
  · exact absurd h (nomatch ·)

/-- The channel that a pseudo-command names, if any, exists. -/
def Pseudo.ChannelExists (p : Params) : Pseudo → Prop
  | .tick ch => ch.toNat < p.nChannels
  | .initAll => True
  | .stepN ch _ => ch.toNat < p.nChannels

/-- A pseudo-command read from a line names an existing channel (R93). -/
theorem channelExists_of_readPseudo {p : Params} {name : List Char} {parts : List (List Char)} {q : Pseudo}
    (h : readPseudo p name parts = some q) : q.ChannelExists p := by
  unfold readPseudo at h
  split_ifs at h
  · split at h
    · obtain ⟨ch, hch, rfl⟩ := Option.map_eq_some_iff.mp h
      exact toNat_lt_of_readChannel hch
    · exact absurd h (nomatch ·)
  · obtain rfl := Option.some.inj h
    trivial
  · split at h
    · obtain ⟨ch, hch, hk⟩ := Option.bind_eq_some_iff.mp h
      obtain ⟨k, -, rfl⟩ := Option.map_eq_some_iff.mp hk
      exact toNat_lt_of_readChannel hch
    · exact absurd h (nomatch ·)

/-- A pseudo-command of an existing channel expands to assemblable commands (R93). -/
theorem assemblable_of_mem_expand {p : Params} {q : Pseudo} {i : Instr} (hq : q.ChannelExists p) (hi : i ∈ expand p q) :
    Assemblable p i := by
  cases q with
  | tick ch =>
    obtain rfl | rfl : i = .step ch ∨ i = .sample ch := by simpa [expand] using hi
    · exact ⟨⟨hq, rfl⟩, fun _ => rfl⟩
    · exact ⟨⟨hq, rfl⟩, fun _ => rfl⟩
  | initAll =>
    obtain ⟨n, hn, rfl⟩ := List.mem_map.mp hi
    exact ⟨⟨toNat_ofNat_lt (List.mem_range.mp hn), rfl⟩, fun _ => rfl⟩
  | stepN ch k =>
    obtain rfl := List.eq_of_mem_replicate hi
    exact ⟨⟨hq, rfl⟩, fun _ => rfl⟩

/-- Every command of a line of text is assemblable (R92, R93). -/
theorem assemblable_of_assembleLine {p : Params} {line : String} {is : List Instr} (h : assembleLine p line = some is)
    {i : Instr} (hi : i ∈ is) : Assemblable p i := by
  simp only [assembleLine] at h
  split at h
  · obtain ⟨j, hj, rfl⟩ := Option.map_eq_some_iff.mp h
    obtain rfl := List.mem_singleton.mp hi
    obtain ⟨ch, x, hassemble⟩ := exists_assemble_of_assembleCommand hj
    exact assemblable_of_assemble hassemble
  · obtain ⟨q, hq, rfl⟩ := Option.map_eq_some_iff.mp h
    exact assemblable_of_mem_expand (channelExists_of_readPseudo hq) hi

/-- Settles O4: a line is either one command, whose operand the assembler has checked, or a pseudo-command of an existing channel,
which expands to commands without an operand. -/
theorem assemblerEmitsNoReservedEncoding : Obligations.AssemblerEmitsNoReservedEncoding := by
  refine ⟨fun c line is h i hi => assemblable_of_assembleLine h hi, fun c o ch x i h => ?_, fun c ch k => ?_⟩
  · obtain ⟨hop, hchannel, -, hlegal⟩ := assemble_operand h
    obtain ⟨-, hch16⟩ := channel_lt_of_assemble h
    exact ⟨hop, by rw [hchannel, toNat_channel hch16], (assemblable_of_assemble h).1, hlegal⟩
  · exact ⟨rfl, by simp [expand], fun n hn => by simp [expand, hn], rfl⟩

end Sys2Proof.Machine

/-! PROOFS. What every command and every step leaves: the frame of a command (R32, R47, R61), its one response (R83), the
invariants of the machine (R44, R45) and what the responses of a run from power-on tell (R263). -/

namespace Sys2Proof.Machine

open Safety

/-! ### The frame of a command -/

/-- Fault entry or a written bank: an effect leaves the words not yet presented and the number of banks,
and gives one response. -/
theorem State.apply_frame (s : State) (ch : Channel) (e : Except Cause (Bank × U32)) :
    (s.apply ch e).commands = s.commands ∧ (s.apply ch e).banks.length = s.banks.length ∧
      ∃ r, (s.apply ch e).responses = s.responses ++ [r] := by
  cases e with
  | error f => exact ⟨rfl, rfl, _, rfl⟩
  | ok bd => exact ⟨rfl, List.length_set, _, rfl⟩

/-- No command takes a word, since the step that runs it has taken its own (R70), and none makes or removes a bank (R32). -/
theorem exec_frame {i : Instr} {s t : State} (h : exec i s = .next t) :
    t.commands = s.commands ∧ t.banks.length = s.banks.length ∧ ∃ r, t.responses = s.responses ++ [r] := by
  obtain ⟨-, rfl⟩ | ⟨-, -, rfl⟩ | ⟨-, b, -, -, rfl⟩ := exec_next_cases h
  · exact ⟨rfl, rfl, _, rfl⟩
  · exact ⟨rfl, rfl, _, rfl⟩
  · exact State.apply_frame ..

/-- A command leaves the bank of every channel but its own (R71). -/
theorem exec_bank?_other {i : Instr} {s t : State} {c : Channel} (h : exec i s = .next t) (hc : c ≠ i.channel) :
    t.bank? c = s.bank? c := by
  obtain ⟨-, rfl⟩ | ⟨-, -, rfl⟩ | ⟨-, b, -, -, rfl⟩ := exec_next_cases h
  · rfl
  · rfl
  · exact State.bank?_apply_other hc _

/-! ### The response of a command -/

/-- From state `s` one response has been given, with the data `d` and the cause that `t` then holds for its `STATUS`: 0 while the
block is live. The data is 0 unless the block is live, and a halted block stays as it is (R83, R224). -/
def Answers (s t : State) (d : U32) : Prop :=
  t.responses = s.responses ++ [responseWord t.status.cause d] ∧ StatusInv t.status ∧
    (t.status.cause ≠ 0 → d = 0) ∧ (s.status.fault = true → t.status = s.status)

/-- A halted block answers with its cause and no data (R224). -/
theorem answers_haltedResponse {s : State} (hst : StatusInv s.status) : Answers s s.haltedResponse 0 :=
  ⟨rfl, hst, fun _ => rfl, fun _ => rfl⟩

/-- The codes of the faults are legal causes (R221). -/
theorem statusInv_raise (s : State) (f : Cause) : StatusInv (s.raise f).status := by
  cases f with
  | illegalCommand => exact .inr ⟨rfl, .inl rfl⟩
  | dividerZero => exact .inr ⟨rfl, .inr rfl⟩

/-- Fault entry answers with the code of the fault and no data (R224). -/
theorem answers_raise {s : State} (hs : s.status.fault = false) (f : Cause) : Answers s (s.raise f) 0 :=
  ⟨rfl, statusInv_raise s f, fun _ => rfl, fun hf => absurd (hs.symm.trans hf) (by decide)⟩

/-- The cause of a live block is 0 (R45). -/
theorem cause_of_live {st : Status} (hst : StatusInv st) (hs : st.fault = false) : st.cause = 0 := by
  obtain ⟨-, hcause⟩ | ⟨hf, -⟩ := hst
  · exact hcause
  · exact absurd (hs.symm.trans hf) (by decide)

/-- The cause of a halted block is not 0 (R45, R221). -/
theorem cause_of_halted {st : Status} (hst : StatusInv st) (hs : st.fault = true) : st.cause ≠ 0 := by
  obtain ⟨hf, -⟩ | ⟨-, hcause⟩ := hst
  · exact absurd (hf.symm.trans hs) (by decide)
  · obtain h | h := hcause <;> rw [h] <;> decide

/-- A command that raises no fault answers OK (R83). -/
theorem answers_respond {s : State} (hst : StatusInv s.status) (hs : s.status.fault = false) (ch : Channel) (b : Bank)
    (d : U32) : Answers s ((s.setBank ch b).respond d) d := by
  have hcause : ((s.setBank ch b).respond d).status.cause = 0 := cause_of_live hst hs
  exact ⟨by rw [hcause]; rfl, hst, fun hne => absurd hcause hne, fun _ => rfl⟩

/-- Only SAMPLE and READ_REG answer data (R83). -/
theorem bankEffect_data {p : Params} {i : Instr} {b b' : Bank} {d : U32} (he : bankEffect p i b = .ok (b', d))
    (hsample : i.opcode ≠ .sample) (hread : i.opcode ≠ .readReg) : d = 0 := by
  cases i with
  | sample ch => exact absurd rfl hsample
  | readReg ch n => exact absurd rfl hread
  | setShape ch code =>
    obtain ⟨_, -, -, rfl⟩ := bankEffect_setShape_ok.mp he
    rfl
  | setDivider ch v =>
    obtain ⟨-, -, -, rfl⟩ := bankEffect_setDivider_ok.mp he
    rfl
  | nop | init | setPitch | setLevel | setInitialPhase | setDividedPitch | step => cases he; rfl

/-- Every command gives one response (R83). -/
theorem exec_answers {i : Instr} {s t : State} (hst : StatusInv s.status) (h : exec i s = .next t) :
    ∃ d, Answers s t d ∧ (i.opcode ≠ .sample → i.opcode ≠ .readReg → d = 0) := by
  obtain ⟨-, rfl⟩ | ⟨hs, -, rfl⟩ | ⟨hs, b, -, -, rfl⟩ := exec_next_cases h
  · exact ⟨0, answers_haltedResponse hst, fun _ _ => rfl⟩
  · exact ⟨0, answers_raise hs _, fun _ _ => rfl⟩
  · cases he : bankEffect s.cfg.toParams i b with
    | error f => exact ⟨0, answers_raise hs f, fun _ _ => rfl⟩
    | ok bd =>
      obtain ⟨b', d⟩ := bd
      exact ⟨d, answers_respond hst hs i.channel b' d, bankEffect_data he⟩

/-- The `OP` field of a word that decodes is that of its command (R85). -/
theorem toNat_opcodeBits_of_decode_ok {p : Params} {w : Command} {i : Instr} (h : decode p w = .ok i) :
    (opcodeBits i.opcode).toNat = w.toNat / 2 ^ 36 := by
  obtain ⟨o, ho, -, -, rfl⟩ := decode_ok_iff.mp h
  rw [assembleInstr_opcode, opcodeBits_of_opcodeOfBits ho, toNat_commandOp_eq_div]

/-- Every word presented is taken and gets one response; only a SAMPLE or a READ_REG gets data (R83). -/
theorem step_answers {s t : State} {w : Command} {rest : List Command} (hst : StatusInv s.status)
    (hc : s.commands = w :: rest) (h : step s = .next t) :
    t.commands = rest ∧ ∃ d, Answers s t d ∧ (w.toNat / 2 ^ 36 ≠ 9 → w.toNat / 2 ^ 36 ≠ 10 → d = 0) := by
  obtain ⟨-, hstep⟩ | ⟨hs, -, hstep⟩ | ⟨hs, i, hi, hstep⟩ := step_cons hc
  · obtain rfl := Host.Outcome.next.inj (hstep.symm.trans h)
    exact ⟨rfl, 0, answers_haltedResponse (s := { s with commands := rest }) hst, fun _ _ => rfl⟩
  · obtain rfl := Host.Outcome.next.inj (hstep.symm.trans h)
    exact ⟨rfl, 0, answers_raise (s := { s with commands := rest }) hs _, fun _ _ => rfl⟩
  · have hexec := hstep.symm.trans h
    obtain ⟨d, hanswers, hdata⟩ := exec_answers (s := { s with commands := rest }) hst hexec
    obtain ⟨hcommands, -⟩ := exec_frame hexec
    refine ⟨hcommands, d, hanswers, fun h9 h10 => hdata (fun ho => h9 ?_) (fun ho => h10 ?_)⟩
    · rw [← toNat_opcodeBits_of_decode_ok hi, ho]; rfl
    · rw [← toNat_opcodeBits_of_decode_ok hi, ho]; rfl

/-! ### What the responses tell -/

/-- While the block is live every response has been OK (R263). -/
theorem responsesInv_of_live {s : State} (hs : s.status.fault = false) :
    ResponsesInv s ↔ ∀ r ∈ s.responses, responseStatus r = 0 := by simp [ResponsesInv, hs]

/-- Once the block is halted the last response carries the cause (R224, R263). -/
theorem responsesInv_of_halted {s : State} (hs : s.status.fault = true) :
    ResponsesInv s ↔ s.status.cause ≠ 0 ∧ s.responses.getLast?.map responseStatus = some s.status.cause := by
  simp [ResponsesInv, hs]

/-- One more response keeps the agreement of the responses with the status. -/
theorem responsesInv_of_answers {s t : State} {d : U32} (hinv : ResponsesInv s) (h : Answers s t d) : ResponsesInv t := by
  obtain ⟨hresponses, hst, -, hhalted⟩ := h
  cases ht : t.status.fault with
  | true =>
    rw [responsesInv_of_halted ht, hresponses]
    exact ⟨cause_of_halted hst ht, by simp⟩
  | false =>
    have hs : s.status.fault = false := Bool.eq_false_iff.mpr fun hs => by simp [hhalted hs, hs] at ht
    rw [responsesInv_of_live ht, hresponses, cause_of_live hst ht]
    intro r hr
    obtain hr | hr := List.mem_append.mp hr
    · exact (responsesInv_of_live hs).mp hinv r hr
    · rw [List.mem_singleton.mp hr, responseStatus_responseWord]

/-- A response with a nonzero `STATUS` has been given exactly when the block is halted (R263). -/
theorem exists_status_ne_zero_iff {s : State} (hinv : ResponsesInv s) :
    (∃ r ∈ s.responses, responseStatus r ≠ 0) ↔ s.status.fault = true := by
  cases hs : s.status.fault with
  | true =>
    obtain ⟨hcause, hlast⟩ := (responsesInv_of_halted hs).mp hinv
    obtain ⟨r, hr, hstatus⟩ := Option.map_eq_some_iff.mp hlast
    exact iff_of_true ⟨r, List.mem_of_getLast? hr, hstatus ▸ hcause⟩ rfl
  | false =>
    refine iff_of_false ?_ (by decide)
    rintro ⟨r, hr, hne⟩
    exact hne ((responsesInv_of_live hs).mp hinv r hr)

/-- A run ends well exactly when it leaves the block live (R263). -/
theorem endsWell_iff {s : State} (hinv : ResponsesInv s) : EndsWell s ↔ s.status.fault = false := by
  unfold EndsWell
  cases hs : s.status.fault with
  | true =>
    obtain ⟨hcause, hlast⟩ := (responsesInv_of_halted hs).mp hinv
    obtain ⟨r, hr, hstatus⟩ := Option.map_eq_some_iff.mp hlast
    simpa [hr, hstatus] using hcause
  | false =>
    cases hr : s.responses.getLast? with
    | none => simp
    | some r => simp [(responsesInv_of_live hs).mp hinv r (List.mem_of_getLast? hr)]

/-- Every step keeps the agreement of the responses with the status. -/
theorem step_responsesInv {s t : State} (hst : StatusInv s.status) (hinv : ResponsesInv s) (h : step s = .next t) :
    ResponsesInv t := by
  cases hc : s.commands with
  | nil =>
    obtain rfl := Host.Outcome.next.inj ((step_nil hc).symm.trans h)
    exact hinv
  | cons w rest =>
    obtain ⟨-, d, hanswers, -⟩ := step_answers hst hc h
    exact responsesInv_of_answers hinv hanswers

/-- A block after power-on has given no response and is live (R250). -/
theorem powerOnWith_responsesInv (c : Config) (ws : List Command) : ResponsesInv (powerOnWith c ws) :=
  (responsesInv_of_live (s := powerOnWith c ws) rfl).mpr fun _ hr => absurd hr List.not_mem_nil

/-! ### Runs -/

/-- A step takes the first word, if one is presented, and answers it. -/
theorem step_port {s t : State} (hst : StatusInv s.status) (h : step s = .next t) :
    t.commands = s.commands.tail ∧ t.responses.length = s.responses.length + min 1 s.commands.length := by
  cases hc : s.commands with
  | nil =>
    obtain rfl := Host.Outcome.next.inj ((step_nil hc).symm.trans h)
    exact ⟨hc, by simp⟩
  | cons w rest =>
    obtain ⟨hcommands, d, ⟨hresponses, -⟩, -⟩ := step_answers hst hc h
    exact ⟨hcommands, by simp [hresponses]⟩

/-- A run of `k` steps takes the first `k` words and answers each of them. -/
theorem run_port {s : State} (k : Nat) (hinv : MachineInv s) :
    ∃ t, Host.Core.run Sys2Proof.core k s = .next t ∧ t.commands = s.commands.drop k ∧
      t.responses.length = s.responses.length + min k s.commands.length := by
  induction k generalizing s with
  | zero => exact ⟨s, run_zero s, rfl, by simp⟩
  | succ k ih =>
    obtain ⟨u, hu, huinv⟩ := step_machineInv hinv
    obtain ⟨-, -, hst⟩ := hinv
    obtain ⟨hcommands, hlength⟩ := step_port hst hu
    obtain ⟨t, ht, htcommands, htlength⟩ := ih huinv
    refine ⟨t, (run_succ k hu).trans ht, by rw [htcommands, hcommands, List.drop_tail], ?_⟩
    rw [htlength, hlength, hcommands, List.length_tail]
    omega

/-- The invariant of the machine and the agreement of its responses hold along every run from power-on. -/
theorem run_powerOnWith_responsesInv (c : Config) (ws : List Command) (k : Nat) :
    ∃ t, Host.Core.run Sys2Proof.core k (powerOnWith c ws) = .next t ∧ MachineInv t ∧ ResponsesInv t := by
  refine run_induction (P := fun s => MachineInv s ∧ ResponsesInv s) ?_ k
    ⟨powerOnWith_machineInv c ws, powerOnWith_responsesInv c ws⟩
  rintro s ⟨hinv, hresponses⟩
  obtain ⟨t, ht, htinv⟩ := step_machineInv hinv
  obtain ⟨-, -, hst⟩ := hinv
  exact ⟨t, ht, htinv, step_responsesInv hst hresponses ht⟩

/-! ### The statements -/

/-- Settles O10: the step answers the state that keeps the invariant, and no other. -/
theorem everyStepKeepsTheInvariant : Obligations.EveryStepKeepsTheInvariant := by
  intro s t hinv h
  obtain ⟨u, hu, huinv⟩ := step_machineInv hinv
  obtain rfl : u = t := Host.Outcome.next.inj (hu.symm.trans h)
  exact huinv

/-- Settles O7: the `STATUS` of the one response is the cause that the step leaves. -/
theorem everyCommandGetsOneResponse : Obligations.EveryCommandGetsOneResponse := by
  intro s t w rest hinv hc h
  obtain ⟨-, -, hst⟩ := hinv
  obtain ⟨-, d, ⟨hresponses, htst, hdata, hhalted⟩, hnodata⟩ := step_answers hst hc h
  refine ⟨t.status.cause, d, hresponses, ?_, hdata, fun hs => by rw [hhalted hs], hnodata,
    responseStatus_responseWord _ d, responseData_responseWord _ d⟩
  obtain ⟨-, hcause⟩ | ⟨-, hcause⟩ := htst
  · exact .inl hcause
  · exact .inr hcause

/-- Settles O8, by the two counts of a run and the agreement of the responses with the status. -/
theorem runsFromPowerOnTellTheirEnd : Obligations.RunsFromPowerOnTellTheirEnd := by
  intro c ws k
  obtain ⟨t, ht, hcommands, hlength⟩ := run_port k (powerOnWith_machineInv c ws)
  obtain ⟨u, hu, -, hresponses⟩ := run_powerOnWith_responsesInv c ws k
  obtain rfl : u = t := Host.Outcome.next.inj (hu.symm.trans ht)
  exact ⟨u, hu, hcommands, hlength.trans (Nat.zero_add _), exists_status_ne_zero_iff hresponses, endsWell_iff hresponses⟩

/-- Settles O11: a step gives one response, whose `STATUS` is the cause it leaves. -/
theorem everyStepKeepsResponsesTrue : Obligations.EveryStepKeepsResponsesTrue :=
  fun _ _ hst hinv h => step_responsesInv hst hinv h

/-- Settles O13: no divider is 0 under the invariant, so no STEP stops, and no other command can. -/
theorem invariantStatesNeverStop : Obligations.InvariantStatesNeverStop := by
  refine ⟨fun s hinv => ?_, fun s i hinv => ?_⟩
  · obtain ⟨t, ht, -⟩ := step_machineInv hinv
    exact ⟨t, ht⟩
  · obtain ⟨t, ht, -⟩ := exec_machineInv i hinv
    exact ⟨t, ht⟩

/-- Settles O24, field by field; the ROM stands in the configuration. -/
theorem everyCommandFrame : Obligations.EveryCommandFrame := by
  intro i s t h
  have hcfg := exec_cfg h
  obtain ⟨hcommands, hlength, hresponse⟩ := exec_frame h
  exact ⟨hcfg, hcommands, fun addr n => by rw [hcfg], hlength, fun c hc => exec_bank?_other h hc, hresponse⟩

/-- Settles O6: a live block takes the word and runs its command; without a word it is idle. -/
theorem stepRunsTheDecodedCommand : Obligations.StepRunsTheDecodedCommand := by
  refine ⟨fun s w rest i hs hc hi => ?_, fun s hc => step_nil hc⟩
  have hpresent : s = ({ s with commands := rest } : State).present w := by rw [State.present, ← hc]
  rw [hpresent]
  exact step_present_of_decode_ok (s := { s with commands := rest }) hs hi

/-- Settles O9: power-on leaves INIT's banks, a live status and no response. -/
theorem powerOnMeetsTheInvariant : Obligations.PowerOnMeetsTheInvariant :=
  ⟨powerOnWith_machineInv Config.model [], State.reset_eq, rfl, rfl, rfl,
    fun c ws => ⟨powerOnWith_machineInv c ws, powerOnWith_responsesInv c ws⟩⟩

end Sys2Proof.Machine

/-! PROOFS. The rest of the control commands of 43_control_commands.md: NOP (R190), READ_REG (R199), and the reserved operands
(R82, R195, R199). -/

namespace Sys2Proof.Machine

open Safety

/-- A command whose operand value its own rule refuses, other than SET_DIVIDER, raises ILLEGAL_COMMAND and changes nothing else
(R195, R199, R224). -/
theorem exec_of_illegal_operand {i : Instr} {s : State} {b : Bank} (hs : s.status.fault = false)
    (hb : s.bank? i.channel = some b) (hi : i.opcode ≠ .setDivider) (hlegal : i.operandLegal = false) :
    exec i s = .next (afterFault s 1) :=
  exec_of_bankEffect_error hs hb (bankEffect_illegalCommand_iff.mpr (.inr ⟨hi, hlegal⟩))

/-- Settles O23: codes from 5 on and numbers from 10 on are no legal operands, and a missing channel has no bank. -/
theorem reservedOperandsRaiseIllegalCommand : Obligations.ReservedOperandsRaiseIllegalCommand := by
  refine ⟨fun s ch b code hs hb hcode => ?shape, fun s ch b r hs hb hr => ?register, fun s i hs hch => ?channel⟩
  case shape => exact exec_of_illegal_operand (i := .setShape ch code) hs hb (nomatch ·) (decide_eq_false hcode.not_gt)
  case register => exact exec_of_illegal_operand (i := .readReg ch r) hs hb (nomatch ·) (decide_eq_false hr.not_gt)
  case channel => exact exec_missing hs (State.bank?_missing hch)

/-- Settles O27: the rule of NOP is its response. -/
theorem nopAnswersAndChangesNothing : Obligations.NopAnswersAndChangesNothing :=
  fun _ _ _ hs hb => onChannel_run hs hb

/-- A 32-bit register is read as it is (R199). -/
@[simp] theorem zext32_word (v : U32) : zext32 v = v := BitVec.setWidth_eq v

/-- Settles O30, number by number: each names the register of its row. -/
theorem readRegAnswersTheRegister : Obligations.ReadRegAnswersTheRegister := by
  intro s ch b hs hb
  have hread (n : BitVec 4) (r : RegName) (d : U32) (hn : regOfNumber n = some r) (hd : readRegister b r = d) :
      exec (.readReg ch n) s = .next { s with responses := s.responses ++ [responseWord 0 d] } :=
    hd ▸ exec_readReg_of_number hs hb hn
  simp only [List.forall_mem_cons]
  exact ⟨hread 0 .phase _ rfl rfl, hread 1 .phaseInc _ rfl rfl, hread 2 .divCounter _ rfl (zext32_word _),
    hread 3 .divider _ rfl (zext32_word _), hread 4 .dividedPhase _ rfl rfl, hread 5 .initialPhase _ rfl rfl,
    hread 6 .level _ rfl rfl, hread 7 .pitch _ rfl rfl, hread 8 .dividedPitch _ rfl rfl, hread 9 .shape _ rfl rfl,
    List.forall_mem_nil _⟩

end Sys2Proof.Machine

/-! PROOFS. The rest of the synthesizer: the entries a lookup reads (R153, R155) and where the ROM holds them (R62 to R64), the
value of each shape (R165 to R170), the negation of Ramp (R174), and SAMPLE (R172). -/

namespace Sys2Proof.Machine

/-! ### The entries of a table -/

/-- Inside a table there is an entry, and it is what `T[i]` reads (R20, R64). -/
theorem tableEntry_eq_romWord {r : Rom} {t : Table} {i : Nat} (h : i < tableEntries r t) :
    tableEntry r t i = some (romWord r t i) := by
  obtain ⟨v, hv⟩ := Option.isSome_iff_exists.mp (tableEntry_isSome.mpr h)
  rw [hv, romWord_eq hv]

/-- Only the increment table has words of four bytes (R63). -/
theorem tableWidth_eq_two_iff {t : Table} : tableWidth t = 2 ↔ t ≠ .lutInc := by cases t <;> decide

/-- Both indexes of a lookup are inside its table (R153, R64). -/
theorem lookup_indexes_lt (c : Config) {t : Table} {B : Nat} (ht : t ≠ .lutInc)
    (hB : if t = .sine then B = 10 else B = c.bandBits) (ep : U32) :
    lookupIndex B ep < tableEntries c.rom t ∧ (lookupIndex B ep + 1) % 2 ^ B < tableEntries c.rom t := by
  obtain ⟨hlen, hB16⟩ := tableEntries_eq_two_pow c ht hB
  rw [hlen]
  exact ⟨lookupIndex_lt (by omega) ep, Nat.mod_lt _ (Nat.two_pow_pos B)⟩

/-- Settles O49: wavetable words are s16 and increment words u32 by the type of the list, and the indexes of the converter and
of the lookup are below the table's length. -/
theorem romReadsStayInsideTheirTables : Obligations.RomReadsStayInsideTheirTables := by
  refine fun c => ⟨fun t i v hv => ⟨fun h2 => ?wavetable, fun h4 => ?increment⟩, fun t i hi h16 => ?memRead,
    fun pitch => incIndex_lt c.wellFormed pitch, fun t B ep ht hB => lookup_indexes_lt c ht hB ep, fun addr n h => ?reserved⟩
  case wavetable => exact tableEntry_s16 (tableWidth_eq_two_iff.mp h2) hv
  case increment =>
    obtain rfl : t = .lutInc := by
      by_contra hne
      exact absurd ((tableWidth_eq_two_iff.mpr hne).symm.trans h4) (by decide)
    exact tableEntry_u32 hv
  case memRead => rw [memRead_base h16, tableEntry_eq_romWord hi]
  case reserved => exact memRead_reserved (by omega)

/-! ### The lookup -/

/-- The index after `i` in a table of `2^B` entries (R153). -/
theorem succ_mod_two_pow {i B : Nat} (h : i < 2 ^ B) : (i + 1) % 2 ^ B = if i + 1 = 2 ^ B then 0 else i + 1 := by
  split
  case isTrue hlast => rw [hlast, Nat.mod_self]
  case isFalse hne => exact Nat.mod_eq_of_lt (by omega)

/-- The fraction of a lookup, by division (R153). -/
theorem lookupFraction_eq (B : Nat) (ep : U32) : lookupFraction B ep = ep.toNat / 2 ^ (16 - B) % 65536 := by
  rw [lookupFraction, Nat.shiftRight_eq_div_pow]
  exact Nat.and_two_pow_sub_one_eq_mod _ 16

/-- A lookup lies between the two words it reads (R155). -/
theorem lookup_between (r : Rom) (t : Table) (B : Nat) (ep : U32) :
    min (romWord r t (lookupIndex B ep)) (romWord r t ((lookupIndex B ep + 1) % 2 ^ B)) ≤ lookup r t B ep ∧
      lookup r t B ep ≤ max (romWord r t (lookupIndex B ep)) (romWord r t ((lookupIndex B ep + 1) % 2 ^ B)) :=
  interpolate_between (Int.natCast_nonneg _) (mod_cast (lookupFraction_lt B ep).le)

/-- Without a fraction a lookup is the first word it reads (R155). -/
theorem lookup_of_fraction_zero {r : Rom} {t : Table} {B : Nat} {ep : U32} (h : lookupFraction B ep = 0) :
    lookup r t B ep = romWord r t (lookupIndex B ep) := by
  rw [lookup, h, Int.natCast_zero, mul_zero, asr_zero, add_zero]

/-- Settles O48: a lookup interpolates between two words of its table, which are s16 values. -/
theorem lookupLiesBetweenItsEntries : Obligations.LookupLiesBetweenItsEntries := by
  intro c t B ep ht hB i fr
  obtain ⟨-, hB16⟩ := tableEntries_eq_two_pow c ht hB
  have hi : i = lookupIndex B ep := (Nat.shiftRight_eq_div_pow ..).symm
  have hfr : fr = lookupFraction B ep := (lookupFraction_eq B ep).symm
  obtain ⟨hindex, hnext⟩ := lookup_indexes_lt c ht hB ep
  obtain ⟨hmin, hmax⟩ := lookup_between c.rom t B ep
  obtain ⟨hlow, hhigh⟩ := lookup_inS16 c ht hB ep
  rw [hi, hfr, ← succ_mod_two_pow (lookupIndex_lt (by omega) ep)]
  exact ⟨_, _, tableEntry_eq_romWord hindex, tableEntry_eq_romWord hnext, by rw [lookup, asr_16], hmin, hmax, hlow, hhigh,
    lookup_of_fraction_zero⟩

/-! ### The shapes -/

/-- Without `FORCE_SAW` the sample is the value of the register's shape (R152, R165). -/
theorem sampleValue_of_shape {p : Params} {b : Bank} {sh : Shape} (hforce : p.forceSaw = false) (hsh : b.shape = sh) :
    sampleValue p b = shapeValue p sh (effectivePhase b) b.dividedPitch b.level := by
  rw [sampleValue, selectedShape_of_not_forceSaw hforce, hsh]

/-- Settles O59, shape by shape. -/
theorem shapeValues : Obligations.ShapeValues := by
  intro c b hforce ep dp scaled
  have hscaled (v : Int) : scale v b.level = scaled v := scale_eq v b.level
  refine ⟨fun hsh dp' => ?sine, fun hsh => ?triangle, fun hsh => ?ramp, fun hsh => ?trapezoid, fun hsh => ?saw⟩
  case sine => exact (sampleValue_of_shape (b := { b with dividedPitch := dp' }) hforce hsh).trans (hscaled _)
  case triangle => exact (sampleValue_of_shape hforce hsh).trans (hscaled _)
  case ramp => exact (sampleValue_of_shape hforce hsh).trans (hscaled _)
  case trapezoid => exact (sampleValue_of_shape hforce hsh).trans (hscaled _)
  case saw => exact (sampleValue_of_shape hforce hsh).trans (congrArg (fun v => wrap16s (-v)) (hscaled _))

/-- Settles O56: Saw narrows the negated Ramp sample, which leaves the s16 range for the sample -32768 alone. -/
theorem sawNegatesRamp : Obligations.SawNegatesRamp := by
  intro c b hforce v saw
  have hramp : v = scale (banded c.toParams (rampRef c.toParams (effectivePhase b)) .ramp10 .ramp100 (effectivePhase b)
      b.dividedPitch) b.level := sampleValue_of_shape (b := { b with shape := .ramp }) hforce rfl
  have hsaw : saw = wrap16s (-v) :=
    (sampleValue_of_shape (b := { b with shape := .saw }) hforce rfl).trans (congrArg (fun v => wrap16s (-v)) hramp.symm)
  have hbanded := banded_inS16 c (rampRef_inS16 c.toParams (effectivePhase b)) (t10 := .ramp10) (by decide)
    (t100 := .ramp100) (by decide) (effectivePhase b) b.dividedPitch
  have hrange : -32768 ≤ v ∧ v ≤ 32766 := hramp ▸ scale_range hbanded b.level
  refine ⟨hsaw, fun hne => ?_, fun hmin => ⟨?_, ?_⟩, fun hwrap hoffset ep hep => ?_⟩
  · rw [hsaw]
    exact wrap16s_of_inS16 (by omega)
  · rw [hsaw, hmin]
    rfl
  · exact ((scale_eq_min_iff hbanded b.level).mp (hramp ▸ hmin)).symm
  · rw [rampRef_wrap hwrap, hoffset, hep]
    rfl

/-! ### SAMPLE -/

/-- The 16 bits of an s16 value have that value (R15). -/
theorem toInt_s16OfInt {v : Int} (h : InS16 v) : (s16OfInt v).toInt = v := by
  obtain ⟨hlow, hhigh⟩ := h
  rw [s16OfInt, BitVec.toInt_ofInt]
  exact Int.bmod_eq_of_le (by omega) (by omega)

/-- Settles O44: every sample value is an s16. -/
theorem sampleAnswersTheSampleValue : Obligations.SampleAnswersTheSampleValue := by
  intro s ch b hs hb
  obtain ⟨hlow, hhigh, -⟩ := sampleRange s.cfg b
  exact ⟨_, toInt_s16OfInt ⟨hlow, hhigh⟩, onChannel_run hs hb⟩

end Sys2Proof.Machine

/-! PROOFS. The clock divider of 41_phase_divider.md over one STEP and over runs: the divided phase (R135, R136), SET_DIVIDER
(R138), accumulated ticks (R131, R133), and the period of the counter (R137). -/

namespace Sys2Proof.Machine

open Safety

/-! ### The sum of R135 -/

/-- The quotient of a phase is at most the quotient of `2^32` (R135). -/
theorem phase_div_le {p : Nat} (d : Nat) (hp : p < 2 ^ 32) : p / d ≤ 2 ^ 32 / d := Nat.div_le_div_right hp.le

/-- The sum of R135 fits in 32 bits (R136). -/
theorem dividedSum_lt {p d k : Nat} (hk : k < d) (hp : p < 2 ^ 32) : dividedSum p d k < 2 ^ 32 := by
  unfold dividedSum
  have hwhole : d * (2 ^ 32 / d) ≤ 2 ^ 32 := Nat.mul_div_le _ _
  have hpart : d * (p / d) ≤ p := Nat.mul_div_le _ _
  have hcounter : 2 ^ 32 / d * k + 2 ^ 32 / d ≤ d * (2 ^ 32 / d) := by
    rw [← Nat.mul_succ, mul_comm]
    exact Nat.mul_le_mul_right _ hk
  obtain hlt | heq := (phase_div_le d hp).lt_or_eq
  · omega
  · rw [heq] at hpart ⊢
    omega

/-- One tick lets the sum of R135 fall exactly where the counter comes to the divider, and so returns to 0 (R136). -/
theorem dividedSum_tick_lt_iff {p n d k : Nat} (hk : k < d) (hd : d < 2 ^ 32) (hp : p < 2 ^ 32) (hn : n < 2 ^ 32) :
    dividedSum ((p + n) % 2 ^ 32) d ((k + (p + n) / 2 ^ 32) % d) < dividedSum p d k ↔ k + (p + n) / 2 ^ 32 = d := by
  have hunit : 1 ≤ 2 ^ 32 / d := (Nat.one_le_div_iff (by omega)).mpr hd.le
  unfold dividedSum
  obtain hsum | hsum := lt_or_ge (p + n) (2 ^ 32)
  · have hrise : p / d ≤ (p + n) / d := Nat.div_le_div_right (Nat.le_add_right p n)
    rw [Nat.div_eq_of_lt hsum, Nat.mod_eq_of_lt hsum, Nat.add_zero, Nat.mod_eq_of_lt hk]
    omega
  · have hcarry : (p + n) / 2 ^ 32 = 1 := by omega
    rw [hcarry]
    obtain hlt | hlast := (Nat.succ_le_of_lt hk).lt_or_eq
    · have hrise : p / d ≤ (p + n) % 2 ^ 32 / d + 2 ^ 32 / d := (phase_div_le d hp).trans (Nat.le_add_left _ _)
      rw [Nat.mod_eq_of_lt hlt, Nat.mul_add_one]
      omega
    · have hfall : (p + n) % 2 ^ 32 / d ≤ p / d := Nat.div_le_div_right (by omega)
      refine iff_of_true ?_ hlast
      rw [show k + 1 = d from hlast, Nat.mod_self, Nat.mul_zero, Nat.add_zero]
      obtain rfl | hpos := Nat.eq_zero_or_pos k
      · obtain rfl : d = 1 := hlast.symm
        simp only [Nat.div_one, Nat.mul_zero]
        omega
      · have := Nat.mul_pos hunit hpos
        omega

/-! ### One tick of a bank -/

/-- The carry out of the add of one STEP, 0 or 1 (R134). -/
abbrev carry (b : Bank) : Nat := (b.phase.toNat + b.phaseInc.toNat) / 2 ^ 32

/-- The carry counts the wrap (R134). -/
theorem carry_eq (b : Bank) : carry b = if 2 ^ 32 ≤ b.phase.toNat + b.phaseInc.toNat then 1 else 0 := by
  have := b.phase.isLt
  have := b.phaseInc.isLt
  unfold carry
  split <;> omega

/-- One STEP advances the counter by the carry, modulo the divider (R133). -/
theorem newCounter_eq_mod {b : Bank} (hk : b.divCounter.toNat < b.divider.toNat) :
    newCounter b = (b.divCounter.toNat + carry b) % b.divider.toNat := by
  rw [newCounter_eq, carry_eq]
  split
  · rfl
  · rw [Nat.add_zero, Nat.mod_eq_of_lt hk]

/-- The counter after one STEP (R133). -/
theorem toNat_stepBank_divCounter {b : Bank} (hk : b.divCounter.toNat < b.divider.toNat) :
    (stepBank b).divCounter.toNat = (b.divCounter.toNat + carry b) % b.divider.toNat := by
  have hfits : newCounter b < 2 ^ 32 := (newCounter_lt_divider hk).trans b.divider.isLt
  rw [← newCounter_eq_mod hk]
  exact Nat.mod_eq_of_lt hfits

/-- One STEP keeps the counter below the divider (R44, R133). -/
theorem stepBank_divCounter_lt {b : Bank} (hk : b.divCounter.toNat < b.divider.toNat) :
    (stepBank b).divCounter.toNat < (stepBank b).divider.toNat := by
  rw [toNat_stepBank_divCounter hk]
  exact Nat.mod_lt _ (Nat.zero_lt_of_lt hk)

/-- A STEP leaves the divided phase at R135's value of the bank. -/
theorem stepBank_dividedFresh {b : Bank} (hk : b.divCounter.toNat < b.divider.toNat) : dividedFresh (stepBank b) := by
  have hcounter : (stepBank b).divCounter.toNat = newCounter b :=
    (toNat_stepBank_divCounter hk).trans (newCounter_eq_mod hk).symm
  have hfits : dividedSum (newPhase b).toNat b.divider.toNat (newCounter b) < 2 ^ 32 :=
    dividedSum_lt (newCounter_lt_divider hk) (newPhase b).isLt
  have hvalue : (stepBank b).dividedPhase.toNat = dividedSum (newPhase b).toNat b.divider.toNat (newCounter b) := by
    rw [stepBank, wrap32_natCast, BitVec.toNat_ofNat, Nat.mod_mod, Nat.mod_eq_of_lt hfits]
  rw [dividedFresh, hcounter]
  exact hvalue

/-- One STEP lets a divided phase of R135's value fall exactly where the counter comes to the divider (R136). -/
theorem stepBank_dividedPhase_lt_iff {b : Bank} (hk : b.divCounter.toNat < b.divider.toNat) (hfresh : dividedFresh b) :
    (stepBank b).dividedPhase.toNat < b.dividedPhase.toNat ↔ b.divCounter.toNat + carry b = b.divider.toNat := by
  rw [stepBank_dividedFresh hk, hfresh, toNat_stepBank_divCounter hk]
  exact toNat_newPhase b ▸ dividedSum_tick_lt_iff hk b.divider.isLt b.phase.isLt b.phaseInc.isLt

/-- A divider of 1 leaves the counter no other value than 0 (R44, R136). -/
theorem divCounter_of_divider_one {b : Bank} (hk : b.divCounter.toNat < b.divider.toNat) (hone : b.divider = 1) :
    b.divCounter = 0 := by
  rw [hone] at hk
  exact BitVec.eq_of_toNat_eq (Nat.lt_one_iff.mp hk)

/-- With a divider of 1 R135's value is the phase (R136). -/
theorem dividedPhase_of_divider_one {b : Bank} (hk : b.divCounter.toNat < b.divider.toNat) (hone : b.divider = 1)
    (hfresh : dividedFresh b) : b.dividedPhase = b.phase := by
  rw [dividedFresh, divCounter_of_divider_one hk hone, hone] at hfresh
  exact BitVec.eq_of_toNat_eq (by simpa using hfresh)

/-! ### Commands and the divided phase -/

/-- INIT leaves the divided phase at R135's value of the bank (R191). -/
theorem initBank_dividedFresh (p : Params) : dividedFresh (initBank p) := by simp [dividedFresh, initBank]

/-- Every command but SET_DIVIDER leaves a divided phase of R135's value so (R136, R140). -/
theorem bankEffect_dividedFresh {p : Params} {i : Instr} {b b' : Bank} {d : U32} (he : bankEffect p i b = .ok (b', d))
    (hi : i.opcode ≠ .setDivider) (hk : b.divCounter.toNat < b.divider.toNat) (hfresh : dividedFresh b) :
    dividedFresh b' := by
  cases i with
  | setDivider ch v => exact absurd rfl hi
  | init ch => cases he; exact initBank_dividedFresh p
  | step ch => cases he; exact stepBank_dividedFresh hk
  | setShape ch code =>
    obtain ⟨_, -, rfl, -⟩ := bankEffect_setShape_ok.mp he
    exact hfresh
  | readReg ch n =>
    obtain ⟨_, -, rfl, -⟩ := bankEffect_readReg_ok.mp he
    exact hfresh
  | nop | setPitch | setLevel | setInitialPhase | setDividedPitch | sample => cases he; exact hfresh

/-- STEP writes its channel's bank after one tick and answers OK (R132). -/
theorem exec_step_live {s : State} {ch : Channel} {b : Bank} (hs : s.status.fault = false) (hb : s.bank? ch = some b)
    (hk : b.divCounter.toNat < b.divider.toNat) : exec (.step ch) s = .next ((s.setBank ch (stepBank b)).respond 0) := by
  have hne : b.divider ≠ 0 := fun h0 => absurd hk (by simp [h0])
  exact exec_live (i := .step ch) hs hb fun _ => hne

/-- The channel of a STEP holds its bank after one tick (R132). -/
theorem bank?_of_exec_step {s t : State} {ch : Channel} {b : Bank} (hs : s.status.fault = false)
    (hb : s.bank? ch = some b) (hk : b.divCounter.toNat < b.divider.toNat) (h : exec (.step ch) s = .next t) :
    t.bank? ch = some (stepBank b) := by
  obtain rfl := Host.Outcome.next.inj ((exec_step_live hs hb hk).symm.trans h)
  exact State.bank?_setBank_self hb

/-- Settles O39: the sum of R135 falls only where the counter returns, and SET_DIVIDER alone leaves a divided phase not of R135's
value. -/
theorem dividedPhaseConsequences : Obligations.DividedPhaseConsequences := by
  refine ⟨fun d k p _ hk hp => Nat.le_sub_one_of_lt (dividedSum_lt hk hp), fun s t ch b hs hb hinv h => ?tick,
    fun i s t ch b h hb hinv hi hfresh => ?command⟩
  case tick =>
    obtain ⟨-, hk, -⟩ := hinv
    refine ⟨stepBank b, bank?_of_exec_step hs hb hk h, rfl, stepBank_dividedFresh hk, fun hone => ?_, fun hfresh => ?_⟩
    · exact ⟨divCounter_of_divider_one hk hone, divCounter_of_divider_one (stepBank_divCounter_lt hk) hone,
        dividedPhase_of_divider_one (stepBank_divCounter_lt hk) hone (stepBank_dividedFresh hk)⟩
    · have hcarry := carry_eq b
      rw [stepBank_dividedPhase_lt_iff hk hfresh]
      refine ⟨by split at hcarry <;> omega, fun hreturn => BitVec.eq_of_toNat_eq ?_⟩
      rw [toNat_stepBank_divCounter hk, hreturn, Nat.mod_self]
      rfl
  case command =>
    obtain ⟨-, hk, -⟩ := hinv
    by_cases hch : i.channel = ch
    · obtain hsame | ⟨b', d, he, hb'⟩ := exec_bank?_cases h hb
      · exact ⟨b, hsame, hfresh⟩
      · exact ⟨b', hb', bankEffect_dividedFresh he (hi.resolve_right fun hne => hne hch) hk hfresh⟩
    · exact ⟨b, (exec_bank?_other h (Ne.symm hch)).trans hb, hfresh⟩

/-! ### SET_DIVIDER -/

/-- Loading the held divider again changes no register (R138). -/
theorem loadDivider_self {b : Bank} (hk : b.divCounter.toNat < b.divider.toNat) : loadDivider b b.divider = b := by
  have hcounter : b.divCounter % b.divider = b.divCounter :=
    BitVec.eq_of_toNat_eq (BitVec.toNat_umod.trans (Nat.mod_eq_of_lt hk))
  rw [loadDivider, hcounter]

/-- Settles O42: the effect of SET_DIVIDER on its channel's bank. -/
theorem setDividerReducesTheCounter : Obligations.SetDividerReducesTheCounter := by
  intro s ch b v hs hb hinv hpos hfit
  obtain ⟨-, hk, -⟩ := hinv
  have hne : v ≠ 0 := fun h0 => absurd hpos (by simp [h0])
  have he : bankEffect s.cfg.toParams (.setDivider ch v) b = .ok (loadDivider b v, 0) :=
    bankEffect_setDivider_ok.mpr ⟨hfit, hne, rfl, rfl⟩
  refine ⟨b.divCounter % v, BitVec.toNat_umod, exec_of_bankEffect_ok hs hb (nomatch ·) he, fun hv => ?_, fun hv => ?_⟩
  · exact hv ▸ congrArg Bank.divCounter (loadDivider_self hk)
  · rw [hv]
    exact BitVec.umod_one

/-! ### Repeated ticks -/

/-- `n` ticks write only the phase, the counter and the divided phase (R132). -/
theorem exists_iterate_stepBank_eq (n : Nat) (b : Bank) :
    ∃ x k y, stepBank^[n] b = { b with phase := x, divCounter := k, dividedPhase := y } := by
  induction n with
  | zero => exact ⟨_, _, _, rfl⟩
  | succ n ih =>
    obtain ⟨x, k, y, h⟩ := ih
    rw [Function.iterate_succ_apply', h]
    exact ⟨_, _, _, rfl⟩

/-- `n` ticks leave the divider and the increment (R132). -/
theorem iterate_stepBank_frame (n : Nat) (b : Bank) :
    (stepBank^[n] b).divider = b.divider ∧ (stepBank^[n] b).phaseInc = b.phaseInc := by
  obtain ⟨x, k, y, h⟩ := exists_iterate_stepBank_eq n b
  rw [h]
  exact ⟨rfl, rfl⟩

/-- `n` ticks accumulate the increment, modulo `2^32` (R131). -/
theorem toNat_iterate_stepBank_phase (n : Nat) (b : Bank) :
    (stepBank^[n] b).phase.toNat = (b.phase.toNat + n * b.phaseInc.toNat) % 2 ^ 32 := by
  induction n with
  | zero => rw [Nat.zero_mul, Nat.add_zero, Nat.mod_eq_of_lt b.phase.isLt]; rfl
  | succ n ih =>
    obtain ⟨-, hinc⟩ := iterate_stepBank_frame n b
    have hphase : (stepBank^[n + 1] b).phase = newPhase (stepBank^[n] b) := by rw [Function.iterate_succ_apply']; rfl
    rw [hphase, toNat_newPhase, ih, hinc, Nat.mod_add_mod, Nat.add_one_mul, Nat.add_assoc]

/-- `n` ticks keep the counter below the divider (R44, R133). -/
theorem iterate_stepBank_divCounter_lt (n : Nat) {b : Bank} (hk : b.divCounter.toNat < b.divider.toNat) :
    (stepBank^[n] b).divCounter.toNat < (stepBank^[n] b).divider.toNat := by
  induction n with
  | zero => exact hk
  | succ n ih =>
    rw [Function.iterate_succ_apply']
    exact stepBank_divCounter_lt ih

/-- `n` ticks advance the counter by the carries of the accumulated increment, modulo the divider (R133). -/
theorem toNat_iterate_stepBank_divCounter (n : Nat) {b : Bank} (hk : b.divCounter.toNat < b.divider.toNat) :
    (stepBank^[n] b).divCounter.toNat =
      (b.divCounter.toNat + (b.phase.toNat + n * b.phaseInc.toNat) / 2 ^ 32) % b.divider.toNat := by
  induction n with
  | zero => simp [Nat.div_eq_of_lt b.phase.isLt, Nat.mod_eq_of_lt hk]
  | succ n ih =>
    obtain ⟨hdivider, hinc⟩ := iterate_stepBank_frame n b
    rw [Function.iterate_succ_apply', toNat_stepBank_divCounter (iterate_stepBank_divCounter_lt n hk), carry, ih, hdivider,
      hinc, toNat_iterate_stepBank_phase, Nat.mod_add_mod, Nat.add_one_mul, Nat.add_assoc]
    congr 2
    omega

/-- Ticks keep a divided phase at R135's value, and from the first tick on it is there. -/
theorem iterate_stepBank_dividedFresh {n : Nat} {b : Bank} (hk : b.divCounter.toNat < b.divider.toNat)
    (h : 1 ≤ n ∨ dividedFresh b) : dividedFresh (stepBank^[n] b) := by
  cases n with
  | zero => exact h.resolve_left (by decide)
  | succ n =>
    rw [Function.iterate_succ_apply']
    exact stepBank_dividedFresh (iterate_stepBank_divCounter_lt n hk)

/-- Under the invariant the counter of every channel is below its divider (R44). -/
theorem divCounter_lt_of_machineInv {s : State} {ch : Channel} {b : Bank} (hinv : MachineInv s) (hb : s.bank? ch = some b) :
    b.divCounter.toNat < b.divider.toNat := by
  obtain ⟨-, hbanks, -⟩ := hinv
  obtain ⟨-, hk, -⟩ := hbanks b (State.mem_of_bank? hb)
  exact hk

/-- A live channel after one STEP: the block is live and meets the invariant, and the channel holds its bank after one tick. -/
theorem exec_step_of_machineInv {s : State} {ch : Channel} {b : Bank} (hinv : MachineInv s) (hs : s.status.fault = false)
    (hb : s.bank? ch = some b) :
    ∃ t, exec (.step ch) s = .next t ∧ MachineInv t ∧ t.status.fault = false ∧ t.bank? ch = some (stepBank b) := by
  obtain ⟨t, ht, htinv⟩ := exec_machineInv (.step ch) hinv
  have hk := divCounter_lt_of_machineInv hinv hb
  have hlive : t.status.fault = false := by
    obtain rfl := Host.Outcome.next.inj ((exec_step_live hs hb hk).symm.trans ht)
    exact hs
  exact ⟨t, ht, htinv, hlive, bank?_of_exec_step hs hb hk ht⟩

/-- `n` ticks of a live channel under the invariant leave its bank after `n` ticks, and STEP has counted the carries of the
accumulated increment (R131, R134). -/
theorem ticks_of_machineInv {s : State} {ch : Channel} {b : Bank} (n : Nat) (hinv : MachineInv s)
    (hs : s.status.fault = false) (hb : s.bank? ch = some b) :
    ∃ t, ticks n ch s = .next t ∧ t.bank? ch = some (stepBank^[n] b) ∧
      wraps ch (List.replicate n (.step ch)) s = (b.phase.toNat + n * b.phaseInc.toNat) / 2 ^ 32 := by
  induction n generalizing s b with
  | zero => exact ⟨s, ticks_zero ch s, hb, by simp [wraps, countTicks, Nat.div_eq_of_lt b.phase.isLt]⟩
  | succ n ih =>
    obtain ⟨u, hu, huinv, hulive, hub⟩ := exec_step_of_machineInv hinv hs hb
    obtain ⟨t, ht, htb, hwraps⟩ := ih huinv hulive hub
    refine ⟨t, (ticks_succ n hu).trans ht, htb, ?_⟩
    have hfirst : wraps ch (List.replicate (n + 1) (.step ch)) s = carry b + wraps ch (List.replicate n (.step ch)) u := by
      rw [carry_eq, wraps, List.replicate_succ, countTicks_cons _ hu hb hub]
      simp [hs]
    have hphase : (stepBank b).phase.toNat = (b.phase.toNat + b.phaseInc.toNat) % 2 ^ 32 := toNat_newPhase b
    have hinc : (stepBank b).phaseInc = b.phaseInc := rfl
    rw [hfirst, hwraps, hphase, hinc, carry, Nat.add_one_mul]
    omega

/-- Settles O40: `n` ticks of the channel's bank, each register by induction on `n`. -/
theorem ticksAccumulateAndCountWraps : Obligations.TicksAccumulateAndCountWraps := by
  intro s ch b n hinv hs hb total
  obtain ⟨t, ht, htb, -⟩ := ticks_of_machineInv n hinv hs hb
  have hk := divCounter_lt_of_machineInv hinv hb
  obtain ⟨hdivider, hinc⟩ := iterate_stepBank_frame n b
  refine ⟨t, _, ht, htb, hdivider, hinc, toNat_iterate_stepBank_phase n b, toNat_iterate_stepBank_divCounter n hk,
    fun hn => ?_⟩
  rw [iterate_stepBank_dividedFresh hk (.inl hn), hdivider]

/-! ### Runs that hold the divider -/

/-- What a run of `w` wraps and `f` falls makes of a bank whose divider is held: the counter has advanced by the wraps modulo the
divider, and a divided phase of R135's value stays one and has fallen once for every return of the counter (R137). -/
def DividerAdvance (b b' : Bank) (w f : Nat) : Prop :=
  b'.divider = b.divider ∧ b'.divCounter.toNat = (b.divCounter.toNat + w) % b.divider.toNat ∧
    (dividedFresh b → dividedFresh b' ∧ f = (b.divCounter.toNat + w) / b.divider.toNat)

/-- No wrap and no fall: the counter stays, and the divided phase stays at R135's value. -/
theorem dividerAdvance_zero {b b' : Bank} (hk : b.divCounter.toNat < b.divider.toNat) (hd : b'.divider = b.divider)
    (hcounter : b'.divCounter = b.divCounter) (hfresh : dividedFresh b → dividedFresh b') : DividerAdvance b b' 0 0 :=
  ⟨hd, by rw [hcounter, Nat.add_zero, Nat.mod_eq_of_lt hk], fun h => ⟨hfresh h, (Nat.div_eq_of_lt hk).symm⟩⟩

/-- A tick advances the counter by its wrap, and the divided phase falls where the counter returns (R136). -/
theorem dividerAdvance_stepBank {b : Bank} (hk : b.divCounter.toNat < b.divider.toNat) :
    DividerAdvance b (stepBank b) (carry b)
      (if (stepBank b).dividedPhase.toNat < b.dividedPhase.toNat then 1 else 0) := by
  refine ⟨rfl, toNat_stepBank_divCounter hk, fun hfresh => ⟨stepBank_dividedFresh hk, ?_⟩⟩
  simp only [stepBank_dividedPhase_lt_iff hk hfresh]
  have hcarry := carry_eq b
  split
  case isTrue hreturn => rw [hreturn, Nat.div_self (Nat.zero_lt_of_lt hk)]
  case isFalse hbelow =>
    refine (Nat.div_eq_of_lt ?_).symm
    split at hcarry <;> omega

/-- Two counts one after the other reach the divider as often as the one count of both. -/
theorem div_add_mod_add_div (a w d : Nat) : a / d + (a % d + w) / d = (a + w) / d := by
  obtain rfl | hd := Nat.eq_zero_or_pos d
  · simp only [Nat.div_zero]
  · have hsplit : a + w = a % d + w + d * (a / d) := by
      have := Nat.div_add_mod a d
      omega
    rw [hsplit, Nat.add_mul_div_left _ _ hd, Nat.add_comm]

/-- Two runs one after the other. -/
theorem DividerAdvance.trans {b b' b'' : Bank} {w f w' f' : Nat} (h : DividerAdvance b b' w f)
    (h' : DividerAdvance b' b'' w' f') : DividerAdvance b b'' (w + w') (f + f') := by
  obtain ⟨hd, hcounter, hfresh⟩ := h
  obtain ⟨hd', hcounter', hfresh'⟩ := h'
  rw [hd, hcounter] at hcounter' hfresh'
  refine ⟨hd'.trans hd, by rw [hcounter', Nat.mod_add_mod, Nat.add_assoc], fun hb => ?_⟩
  obtain ⟨hb', rfl⟩ := hfresh hb
  obtain ⟨hb'', rfl⟩ := hfresh' hb'
  exact ⟨hb'', by rw [div_add_mod_add_div, Nat.add_assoc]⟩

/-- A command other than STEP that leaves the divider leaves the counter too: INIT leaves a divider of 1, and SET_DIVIDER
loads the one held (R138, R191). -/
theorem bankEffect_dividerAdvance {p : Params} {i : Instr} {b b' : Bank} {d : U32} (hi : i.opcode ≠ .step)
    (hk : b.divCounter.toNat < b.divider.toNat) (he : bankEffect p i b = .ok (b', d)) (hd : b'.divider = b.divider) :
    DividerAdvance b b' 0 0 := by
  cases i with
  | step ch => exact absurd rfl hi
  | setDivider ch v =>
    obtain ⟨-, -, rfl, -⟩ := bankEffect_setDivider_ok.mp he
    obtain rfl : v = b.divider := hd
    rw [loadDivider_self hk]
    exact dividerAdvance_zero hk rfl rfl id
  | init ch =>
    cases he
    exact dividerAdvance_zero hk hd (divCounter_of_divider_one hk hd.symm).symm fun _ => initBank_dividedFresh p
  | nop | setPitch | setShape | setLevel | setInitialPhase | setDividedPitch | sample | readReg =>
    have hcounter : b'.divCounter = b.divCounter := by
      simpa [readRegister] using bankEffect_readRegister_of_not_writes (r := .divCounter) he rfl
    exact dividerAdvance_zero hk hd hcounter fun hfresh => bankEffect_dividedFresh he (nomatch ·) hk hfresh

/-- A command that is no executed STEP of the channel leaves its bank, or has another command's effect on it. -/
theorem exec_bank?_cases_of_not_tick {i : Instr} {s t : State} {ch : Channel} {b : Bank}
    (hi : ¬ (i = .step ch ∧ s.status.fault = false)) (h : exec i s = .next t) (hb : s.bank? ch = some b) :
    t.bank? ch = some b ∨
      ∃ b' d, i.opcode ≠ .step ∧ bankEffect s.cfg.toParams i b = .ok (b', d) ∧ t.bank? ch = some b' := by
  by_cases hother : ch ≠ i.channel
  · exact .inl ((exec_bank?_other h hother).trans hb)
  cases hs : s.status.fault with
  | true =>
    obtain rfl := Host.Outcome.next.inj ((exec_halted hs).symm.trans h)
    exact .inl hb
  | false =>
    obtain hsame | ⟨b', d, he, hb'⟩ := exec_bank?_cases h hb
    · exact .inl hsame
    · refine .inr ⟨b', d, fun ho => hi ⟨?_, hs⟩, he, hb'⟩
      cases i with
      | step c => rw [not_not.mp hother]; rfl
      | _ => exact absurd ho (nomatch ·)

/-- One command of a run that holds the divider (R137). -/
theorem exec_dividerAdvance {i : Instr} {s t : State} {ch : Channel} {b b' : Bank} (hk : b.divCounter.toNat < b.divider.toNat)
    (h : exec i s = .next t) (hb : s.bank? ch = some b) (hb' : t.bank? ch = some b') (hd : b'.divider = b.divider) :
    DividerAdvance b b'
      (if i = .step ch ∧ s.status.fault = false ∧ 2 ^ 32 ≤ b.phase.toNat + b.phaseInc.toNat then 1 else 0)
      (if i = .step ch ∧ s.status.fault = false ∧ b'.dividedPhase.toNat < b.dividedPhase.toNat then 1 else 0) := by
  by_cases hi : i = .step ch ∧ s.status.fault = false
  · obtain ⟨rfl, hs⟩ := hi
    obtain rfl : stepBank b = b' := Option.some.inj ((bank?_of_exec_step hs hb hk h).symm.trans hb')
    simpa only [hs, true_and, carry_eq] using dividerAdvance_stepBank hk
  · simp only [← and_assoc, hi, false_and, if_false]
    obtain hsame | ⟨a, d, ho, he, ha⟩ := exec_bank?_cases_of_not_tick hi h hb
    · obtain rfl : b = b' := Option.some.inj (hsame.symm.trans hb')
      exact dividerAdvance_zero hk rfl rfl id
    · obtain rfl : a = b' := Option.some.inj (ha.symm.trans hb')
      exact bankEffect_dividerAdvance ho hk he hd

/-- A command leaves a bank where there was one. -/
theorem exists_bank?_of_exec {i : Instr} {s t : State} {c : Channel} {b : Bank} (h : exec i s = .next t)
    (hb : s.bank? c = some b) : ∃ b', t.bank? c = some b' := by
  obtain hsame | ⟨b', -, -, hb'⟩ := exec_bank?_cases h hb
  · exact ⟨b, hsame⟩
  · exact ⟨b', hb'⟩

/-- A run of commands under the invariant that holds the divider, by induction on the commands (R137). -/
theorem execAll_dividerAdvance {s : State} {ch : Channel} {b : Bank} (is : List Instr) (hinv : MachineInv s)
    (hb : s.bank? ch = some b) (hheld : dividerHeld ch b.divider is s) :
    ∃ t b', execAll is s = .next t ∧ t.bank? ch = some b' ∧
      DividerAdvance b b' (wraps ch is s) (dividedFalls ch is s) := by
  induction is generalizing s b with
  | nil =>
    have hk := divCounter_lt_of_machineInv hinv hb
    exact ⟨s, b, execAll_nil s, hb, dividerAdvance_zero hk rfl rfl id⟩
  | cons i is ih =>
    obtain ⟨u, hu, huinv⟩ := exec_machineInv i hinv
    obtain ⟨a, ha⟩ := exists_bank?_of_exec hu hb
    obtain ⟨hdivider, hrest⟩ := hheld u hu
    have hd : a.divider = b.divider := hdivider a ha
    have hk := divCounter_lt_of_machineInv hinv hb
    obtain ⟨t, b', ht, hb', hadvance⟩ := ih huinv ha (hd ▸ hrest)
    refine ⟨t, b', (execAll_cons is hu).trans ht, hb', ?_⟩
    simp only [wraps, dividedFalls, countTicks_cons is hu hb ha, decide_eq_true_iff]
    exact (exec_dividerAdvance hk hu hb ha hd).trans hadvance

/-- `d` raw cycles bring a bank that a STEP has left back to itself (R137). -/
theorem iterate_stepBank_of_cycles {n : Nat} {b : Bank} (hk : b.divCounter.toNat < b.divider.toNat)
    (hn : n * b.phaseInc.toNat = b.divider.toNat * 2 ^ 32) (hfresh : dividedFresh b) : stepBank^[n] b = b := by
  have hphase : (stepBank^[n] b).phase = b.phase := BitVec.eq_of_toNat_eq (by
    rw [toNat_iterate_stepBank_phase, hn, Nat.add_mul_mod_self_right, Nat.mod_eq_of_lt b.phase.isLt])
  have hcounter : (stepBank^[n] b).divCounter = b.divCounter := BitVec.eq_of_toNat_eq (by
    rw [toNat_iterate_stepBank_divCounter n hk, hn, Nat.add_mul_div_right _ _ (by decide),
      Nat.div_eq_of_lt b.phase.isLt, Nat.zero_add, Nat.add_mod_right, Nat.mod_eq_of_lt hk])
  obtain ⟨hdivider, -⟩ := iterate_stepBank_frame n b
  have hdivided : (stepBank^[n] b).dividedPhase = b.dividedPhase := BitVec.eq_of_toNat_eq (by
    rw [iterate_stepBank_dividedFresh hk (.inr hfresh), hphase, hcounter, hdivider, hfresh])
  obtain ⟨x, k, y, heq⟩ := exists_iterate_stepBank_eq n b
  rw [heq] at hphase hcounter hdivided ⊢
  obtain rfl : x = b.phase := hphase
  obtain rfl : k = b.divCounter := hcounter
  obtain rfl : y = b.dividedPhase := hdivided
  rfl

/-- A count of fewer than `d` steps, but some, leads away from where it began, modulo `d`. -/
theorem add_mod_ne_self {k w d : Nat} (hk : k < d) (hpos : 0 < w) (hlt : w < d) : (k + w) % d ≠ k := by
  obtain hbelow | hreturn := lt_or_ge (k + w) d
  · rw [Nat.mod_eq_of_lt hbelow]
    omega
  · rw [Nat.mod_eq_sub_mod hreturn, Nat.mod_eq_of_lt (by omega)]
    omega

/-- Settles O41: the counter of a run that holds the divider is the number of wraps modulo the divider, and the falls are the
quotient. -/
theorem dividerPeriodicity : Obligations.DividerPeriodicity := by
  refine ⟨fun s ch b is hinv _ hb hheld => ?run, fun s ch b n hinv hs hb => ?ticks⟩
  case run =>
    obtain ⟨t, b', ht, hb', -, hcounter, hfalls⟩ := execAll_dividerAdvance is hinv hb hheld
    have hk := divCounter_lt_of_machineInv hinv hb
    generalize wraps ch is s = w at hcounter hfalls ⊢
    have hback (hw : w = b.divider.toNat) : b'.divCounter = b.divCounter := by
      refine BitVec.eq_of_toNat_eq ?_
      rw [hcounter, hw, Nat.add_mod_right, Nat.mod_eq_of_lt hk]
    refine ⟨t, b', ht, hb', hcounter, hback, fun hpos hlt heq => ?_,
      fun h0 => ⟨fun hlt => ?_, fun hw => (hback hw).trans h0⟩, fun hfresh => ?_⟩
    · exact add_mod_ne_self hk hpos hlt (heq ▸ hcounter).symm
    · rw [hcounter, h0]
      exact (congrArg (· % _) (Nat.zero_add w)).trans (Nat.mod_eq_of_lt hlt)
    · obtain ⟨-, hcount⟩ := hfalls hfresh
      refine ⟨hcount, fun hw => ?_⟩
      rw [hcount, hw, Nat.add_div_right _ (Nat.zero_lt_of_lt hk), Nat.div_eq_of_lt hk]
  case ticks =>
    obtain ⟨t, ht, htb, hwraps⟩ := ticks_of_machineInv n hinv hs hb
    have hk := divCounter_lt_of_machineInv hinv hb
    exact ⟨t, _, ht, htb, hwraps, iterate_stepBank_of_cycles hk⟩

end Sys2Proof.Machine
